-- ==== Sys2Proof/Word.lean ====
section
/-! DEFINITION. The word types: the 32-bit platter (spec/00_scope.md R5, R6) and the byte of the two byte ports and of
the program image (spec/20_memory.md R39). Every value is unsigned. -/

namespace Sys2Proof

/-- A 32-bit word: a register value, an array word or a platter (R5, R6). -/
abbrev Word := BitVec 32

/-- A byte: what the output and input ports carry, and what a program image is made of (R39, R133, R134). -/
abbrev Byte := BitVec 8

end Sys2Proof
end

