-- ==== Sys2Proof/Syntax.lean ====
section
/-! DEFINITION. The instructions, one constructor per operator value of spec/30_encoding.md R63, with the operand
fields R63 lists for it (an unused register field, R65, is no operand). -/

namespace Sys2Proof

/-- A register number, 0 to 7 (spec/10_state.md R10: "register indices are always in [0,7]"). -/
abbrev Reg := Fin 8

/-- The instructions of R63, operands in the order a, b, c (R70). `input` and `output` are IN and OUT. -/
inductive Instr where
  /-- CMOV, operator 0 (R90). -/
  | cmov (a b c : Reg)
  /-- INDEX, operator 1 (R95). -/
  | index (a b c : Reg)
  /-- AMEND, operator 2 (R96). -/
  | amend (a b c : Reg)
  /-- ADD, operator 3 (R100). -/
  | add (a b c : Reg)
  /-- MUL, operator 4 (R101). -/
  | mul (a b c : Reg)
  /-- DIV, operator 5 (R102). -/
  | div (a b c : Reg)
  /-- NAND, operator 6 (R103). -/
  | nand (a b c : Reg)
  /-- HALT, operator 7 (R120). -/
  | halt
  /-- ALLOC, operator 8 (R110). -/
  | alloc (b c : Reg)
  /-- ABANDON, operator 9 (R111). -/
  | abandon (c : Reg)
  /-- OUT, operator 10 (R115). -/
  | output (c : Reg)
  /-- IN, operator 11 (R116). -/
  | input (c : Reg)
  /-- LOADPROG, operator 12 (R121). -/
  | loadprog (b c : Reg)
  /-- ORTHO, operator 13 (R91). The immediate is a number of at most 25 bits: `Instr.wf` checks it. -/
  | ortho (s : Reg) (imm : Word)
  /-- NOP14, operator value 14, undefined and ignored (R67, R122). -/
  | nop14
  /-- NOP15, operator value 15, undefined and ignored (R67, R122). -/
  | nop15
  deriving DecidableEq, Repr

end Sys2Proof
end

