-- ==== Sys2Proof/WellFormed.lean ====
section
/-! DEFINITION. Which instruction terms stand for an instruction of the hardware. Register operands are in range by
their type; the one check is ORTHO's immediate (spec/30_encoding.md R62, R66, R70). -/

namespace Sys2Proof

/-- The largest immediate plus one: the immediate field is 25 bits wide (R62, R66). -/
def immBound : Nat := 2 ^ 25

/-- An instruction term is well formed when ORTHO's immediate fits its 25-bit field: `imm` is a number from 0 to
`0x1FFFFFF` (R70). No other operand can be out of range. -/
def Instr.wf : Instr → Bool
  | .ortho _ imm => imm.toNat < immBound
  | .cmov _ _ _ => true
  | .index _ _ _ => true
  | .amend _ _ _ => true
  | .add _ _ _ => true
  | .mul _ _ _ => true
  | .div _ _ _ => true
  | .nand _ _ _ => true
  | .halt => true
  | .alloc _ _ => true
  | .abandon _ => true
  | .output _ => true
  | .input _ => true
  | .loadprog _ _ => true
  | .nop14 => true
  | .nop15 => true

end Sys2Proof
end

