-- ==== Sys2Proof/Decode.lean ====
section
/-! DEFINITION. Decoding and encoding of platters (spec/30_encoding.md R60 to R71) and the big-endian program image
(spec/20_memory.md R39). Decoding a 32-bit word is total and refuses nothing (R67, R69); only a byte sequence that
ends inside a word is refused, by name. -/

namespace Sys2Proof

/-- `w[hi:lo]`, the unsigned number formed by bits hi down to lo of w (spec/00_scope.md R6). -/
def bits (w : Word) (hi lo : Nat) : Nat := w.toNat / 2 ^ lo % 2 ^ (hi - lo + 1)

/-- The register number in the 3-bit field whose lowest bit is `lo` (R61, R62). -/
def regField (w : Word) (lo : Nat) : Reg := ⟨w.toNat / 2 ^ lo % 8, Nat.mod_lt _ (by decide)⟩

/-- The operator field, `w[31:28]` (R61). -/
def opField (w : Word) : Nat := bits w 31 28

/-- Field a of the standard format, bits 8 to 6 (R61). -/
def fieldA (w : Word) : Reg := regField w 6

/-- Field b of the standard format, bits 5 to 3 (R61). -/
def fieldB (w : Word) : Reg := regField w 3

/-- Field c of the standard format, bits 2 to 0 (R61). -/
def fieldC (w : Word) : Reg := regField w 0

/-- Field s of the special format, bits 27 to 25 (R62). -/
def fieldS (w : Word) : Reg := regField w 25

/-- The 25-bit immediate of the special format, bits 24 to 0, as an unsigned number (R62, R66). -/
def fieldImm (w : Word) : Word := BitVec.ofNat 32 (bits w 24 0)

/-- The decode function of R69. It reads no other bit than R61 and R62 name (R64, R65). -/
def decode (w : Word) : Instr :=
  match opField w with
  | 0 => .cmov (fieldA w) (fieldB w) (fieldC w)
  | 1 => .index (fieldA w) (fieldB w) (fieldC w)
  | 2 => .amend (fieldA w) (fieldB w) (fieldC w)
  | 3 => .add (fieldA w) (fieldB w) (fieldC w)
  | 4 => .mul (fieldA w) (fieldB w) (fieldC w)
  | 5 => .div (fieldA w) (fieldB w) (fieldC w)
  | 6 => .nand (fieldA w) (fieldB w) (fieldC w)
  | 7 => .halt
  | 8 => .alloc (fieldB w) (fieldC w)
  | 9 => .abandon (fieldC w)
  | 10 => .output (fieldC w)
  | 11 => .input (fieldC w)
  | 12 => .loadprog (fieldB w) (fieldC w)
  | 13 => .ortho (fieldS w) (fieldImm w)
  | 14 => .nop14
  | _ => .nop15   -- the operator field is 4 bits, so this is 15 and nothing else

/-- The operator value of an instruction (R63). -/
def Instr.operator : Instr → Nat
  | .cmov _ _ _ => 0
  | .index _ _ _ => 1
  | .amend _ _ _ => 2
  | .add _ _ _ => 3
  | .mul _ _ _ => 4
  | .div _ _ _ => 5
  | .nand _ _ _ => 6
  | .halt => 7
  | .alloc _ _ => 8
  | .abandon _ => 9
  | .output _ => 10
  | .input _ => 11
  | .loadprog _ _ => 12
  | .ortho _ _ => 13
  | .nop14 => 14
  | .nop15 => 15

/-- The canonical word of the standard format (R71): ignored bits and unused fields are 0. -/
def standardWord (op a b c : Nat) : Word := BitVec.ofNat 32 (op * 2 ^ 28 + a * 64 + b * 8 + c)

/-- The word of the special format (R71). -/
def specialWord (s imm : Nat) : Word := BitVec.ofNat 32 (13 * 2 ^ 28 + s * 2 ^ 25 + imm)

/-- The canonical encoding of R71. -/
def encode : Instr → Word
  | .cmov a b c => standardWord 0 a b c
  | .index a b c => standardWord 1 a b c
  | .amend a b c => standardWord 2 a b c
  | .add a b c => standardWord 3 a b c
  | .mul a b c => standardWord 4 a b c
  | .div a b c => standardWord 5 a b c
  | .nand a b c => standardWord 6 a b c
  | .halt => standardWord 7 0 0 0
  | .alloc b c => standardWord 8 0 b c
  | .abandon c => standardWord 9 0 0 c
  | .output c => standardWord 10 0 0 c
  | .input c => standardWord 11 0 0 c
  | .loadprog b c => standardWord 12 0 b c
  | .ortho s imm => specialWord s (imm.toNat % immBound)
  | .nop14 => standardWord 14 0 0 0
  | .nop15 => standardWord 15 0 0 0

/-- The four bytes of a word, most significant first, as the program image holds them (R39). -/
def wordBytes (w : Word) : List Byte :=
  [BitVec.ofNat 8 (bits w 31 24), BitVec.ofNat 8 (bits w 23 16), BitVec.ofNat 8 (bits w 15 8), BitVec.ofNat 8 (bits w 7 0)]

/-- The word four image bytes make, the first the most significant (R39). -/
def imageWord (b0 b1 b2 b3 : Byte) : Word :=
  BitVec.ofNat 32 (b0.toNat * 2 ^ 24 + b1.toNat * 2 ^ 16 + b2.toNat * 2 ^ 8 + b3.toNat)

/-- The words of a program image, big-endian, in file order (R39); `none` when the length is not a multiple of 4, the
spec's `F_IMAGE` (spec/70_reset_and_hazards.md R170). -/
def imageWords : List Byte → Option (List Word)
  | [] => some []
  | b0 :: b1 :: b2 :: b3 :: rest => (imageWords rest).map (imageWord b0 b1 b2 b3 :: ·)
  | _ => none

/-- Why a byte sequence holds no instruction at its head. -/
inductive DecodeError where
  /-- Fewer than the four bytes of a word are left (R60: every instruction is exactly one 32-bit word). -/
  | shortWord
  deriving DecidableEq, Repr

/-- The instruction at the head of a byte sequence laid out as the image lays it out, and the bytes after it. -/
def decodeBytes : List Byte → Except DecodeError (Instr × List Byte)
  | b0 :: b1 :: b2 :: b3 :: rest => .ok (decode (imageWord b0 b1 b2 b3), rest)
  | _ => .error .shortWord

/-- The image bytes of an instruction. -/
def encodeBytes (i : Instr) : List Byte := wordBytes (encode i)

/-- The word whose low `nbits` bits are those of `w`, the rest 0: what the opcode table's numbering names. -/
def tableWord (nbits w : Nat) : Word := BitVec.ofNat 32 (w % 2 ^ nbits)

/-- The instruction the decoder reads from the table's bits of it: one word (R60), laid out most significant byte
first (R39). A table row wider than a word is none of this hardware's. -/
def decodeTableWord (nbits w : Nat) : Option Instr :=
  if nbits ≤ 32 then
    match decodeBytes (wordBytes (tableWord nbits w)) with
    | .ok (i, _) => some i
    | .error _ => none
  else none

end Sys2Proof
end

