-- ==== Sys2Proof/Machine/Data.lean ====
section
/-! DEFINITION. The plain data the machine's state is made of: the Array Store (spec/20_memory.md), the six fields of
the Machine State as a snapshot holds them (spec/10_state.md, spec/50_interfaces.md R137), the events of the input and
command ports (R134, R136), and the open parameters (spec/92_eei_decisions.md). -/

namespace Sys2Proof.Machine

/-- One word array (R31): its length, and the words that are not 0, by index, indices rising. A word of the array that
is not listed is 0: `Alloc` makes arrays "of exactly n words, all zero" (R35). The form keeps an array of 2^32-1 zero
words small, and equal arrays equal data (log entry 8). -/
structure WordArray where
  /-- The number of words, 0 to 2^32 - 1 (R31). -/
  len : Nat
  /-- The words that are not 0, as pairs of index and word. -/
  cells : List (Nat × Word)
  deriving DecidableEq, Repr, Inhabited

/-- The Array Store (R16, R30 to R32): one entry for every handle ever minted, so the array count N is the number of
entries, `none` for a freed handle; and the free-handle stack (R17), the most recently freed handle first. -/
structure Memory where
  /-- By handle: the live array, or `none` for a free handle. -/
  arrays : List (Option WordArray)
  /-- The free-handle stack, its top first (R17). -/
  free : List Nat
  deriving DecidableEq, Repr, Inhabited

/-- The complete Machine State, what a `Save` stores and a `Load` replaces (R137, R138): "registers, all array contents
and their handles, the free-handle set, execution_finger, halted, instruction_count". -/
structure Snapshot where
  /-- The 8 general registers (R10). -/
  regs : Vector Word 8
  /-- The execution finger (R12). -/
  pc : Nat
  /-- The halted flag (R14). -/
  halted : Bool
  /-- `instruction_count` (R15). -/
  count : Nat
  /-- The arrays with their handles, and the free-handle stack with its order (R16, R17). -/
  mem : Memory
  deriving DecidableEq, Repr, Inhabited

/-- What the input port answers to a request (R134). -/
inductive Answer where
  /-- A byte of the stream. -/
  | byte (v : Byte)
  /-- The end-of-stream sentinel: the stream is exhausted, or errors. -/
  | eof
  deriving DecidableEq, Repr, Inhabited

/-- A filesystem path string (R136), compared as a string (DESIGN CHOICE, log entry 31). -/
abbrev Path := String

/-- A host command (R136). -/
inductive Command where
  /-- Store a snapshot of the Machine State at a path (R137). -/
  | save (path : Path)
  /-- Replace the Machine State by the blob at a path (R138). -/
  | load (path : Path)
  deriving DecidableEq, Repr, Inhabited

/-- What a path holds: a blob that records a Machine State, or nothing that can be read as one (R138, R140). The blob's
bytes are "implementation-defined" and not modelled (spec/93_implementation_defined.md U8). -/
inductive Blob where
  /-- A readable blob and the Machine State it records. -/
  | snapshot (m : Snapshot)
  /-- No file, an unreadable file, or a malformed blob (R140). -/
  | unreadable
  deriving DecidableEq, Repr, Inhabited

/-- What the environment does at one poll of the input wait (R134, R136): the poll loop checks for the answer and
applies at most one command. -/
inductive EnvEvent where
  /-- The stream has not answered yet, and no command is applied. -/
  | nothing
  /-- An external controller enqueues a command. -/
  | arrive (c : Command)
  /-- The block applies the command at the head of the queue; `ok` says whether the host's file operation succeeds. -/
  | serve (ok : Bool)
  /-- The input port answers the pending request. -/
  | answer (a : Answer)
  deriving DecidableEq, Repr, Inhabited

/-- `INPUT_MODEL` (R134, D14): how the input port behaves when no scripted event is left. -/
inductive InputModel where
  /-- A free oracle: any event, drawn from `Config.envEvent`. -/
  | oracle
  /-- A test harness's finite list, then end of stream for every later request. -/
  | finite
  deriving DecidableEq, Repr, Inhabited

/-- The open parameters of the block, which "the model takes as an argument" (spec/00_scope.md R5,
spec/92_eei_decisions.md). No step changes them (log entry 24). -/
structure Params where
  /-- `IMAGE_MAX_WORDS`, the largest program image in words (R5, D2). -/
  imageMaxWords : Nat
  /-- `STORE_CAPACITY_WORDS`, the total words the Array Store can hold; `none` for unbounded (R35, R49, D13). -/
  storeCapacity : Option Nat
  /-- `INPUT_MODEL` (D14). -/
  inputModel : InputModel
  /-- `HOST_COMMANDS`: whether the command port is present (R136, D16). -/
  hostCommands : Bool
  deriving DecidableEq, Repr, Inhabited

end Sys2Proof.Machine
end

