-- ==== Sys2Proof/Config.lean ====
section
/-! DEFINITION. What an implementation fixes, and the free values. An `opaque` constant here has no body: nothing can
prove a value of it, so a theorem that mentions it holds whatever it is. -/

namespace Sys2Proof

open Sys2Proof.Machine

/-- FREE VALUE (log entry 10). What the environment does at a poll of the input wait that no script decides: the input
port is "an oracle that answers each request freely" with a byte, an end of stream, or never (spec/50_interfaces.md
R134, D14), and any prefix of the command queue may be applied during a wait (R136, D16). Applied to `State.tick`. -/
opaque Config.envEvent : Nat → EnvEvent

/-- FREE VALUE (log entry 15). What a path holds that this machine has not saved to: a blob of another instance (R141),
or nothing readable. Applied to `State.tick` and the path. -/
opaque Config.hostFile : Nat → Path → Blob

/-- The default parameters of spec/92_eei_decisions.md: images up to 2^32 - 1 words (D2), unbounded storage (D13), the
free input oracle (D14). `HOST_COMMANDS` is the modeller's to choose (D16): present, the safe side (log entry 13). -/
def Config.defaultParams : Params :=
  { imageMaxWords := 2 ^ 32 - 1, storeCapacity := none, inputModel := .oracle, hostCommands := true }

end Sys2Proof
end

