-- ==== Sys2Proof/Machine/State.lean ====
section
/-! DEFINITION. The machine's state as plain data (spec/10_state.md), the faults (spec/60_exceptions.md R150), the
refusals, and the state after reset (R24, spec/70_reset_and_hazards.md R170). -/

namespace Sys2Proof.Machine

/-- The fatal faults of R150, with the information the table says each carries. All are SAFE: the hardware stops
where the model stops. -/
inductive Fault where
  /-- `F_FETCH`: `pc >= len(0)` at a fetch; raised by every step's fetch (spec/40_execution_cycle.md R81). Safe. -/
  | fetch (pc : Nat)
  /-- `F_HANDLE`: a handle that is not live; raised by INDEX, AMEND and LOADPROG (R33, R34, R37). Safe. -/
  | handle (h : Word)
  /-- `F_INDEX`: an index not below the length of a live array; raised by INDEX and AMEND (R33, R34). Safe. -/
  | index (h i : Word)
  /-- `F_DIV0`: divisor 0; raised by DIV (R102). Safe. -/
  | div0
  /-- `F_FREE0`: freeing handle 0; raised by ABANDON (R36). Safe. -/
  | free0
  /-- `F_FREE_DEAD`: freeing a handle that is already free or was never minted; raised by ABANDON (R36). Safe. -/
  | freeDead (h : Word)
  /-- `F_ALLOC`: no handle or no storage for a new array; raised by ALLOC (R35); carries the length asked. Safe. -/
  | alloc (n : Word)
  deriving DecidableEq, Repr

/-- Why the model gives no next state and no fault. No step of the machine answers a refusal. -/
inductive Refusal where
  /-- An instruction that has no meaning yet, by its mnemonic. No arm raises it. Safe. -/
  | notModelled (mnemonic : String)
  /-- `F_IMAGE`: the image's byte length is not a multiple of 4, "a fatal load-time error"; raised by `boot`, the
  machine is never started (R150, R170). Safe. -/
  | imageLength
  /-- The image has more than `IMAGE_MAX_WORDS` words; raised by `boot` (R131, D2: "images above it are refused"). Safe. -/
  | imageTooLong
  deriving DecidableEq, Repr

/-- The phase of the machine (R22). -/
inductive Phase where
  /-- The next action is a step (R80). -/
  | running
  /-- An IN with register field c waits for its byte; the finger already points past it (R22, R82). -/
  | waitingInput (c : Reg)
  /-- `halted` is true; terminal (R84). -/
  | halted
  /-- A fatal fault has been raised; terminal (R85, R152). -/
  | faulted (f : Fault)
  deriving DecidableEq, Repr

/-- The state: the Machine State of spec/10_state.md (`regs`, `pc`, `halted`, `count`, `mem`), the phase (R22), what
the spec keeps at the block's boundary (R23), the parameters, and the model's own `script` and `tick`. -/
structure State where
  /-- The 8 general registers `x[0]` to `x[7]` (R10). -/
  regs : Vector Word 8
  /-- The execution finger (R12, R13). -/
  pc : Nat
  /-- The halted flag (R14). -/
  halted : Bool
  /-- `instruction_count` (R15). -/
  count : Nat
  /-- The Array Store: arrays and free-handle stack (R16, R17, R30 to R32). -/
  mem : Memory
  /-- The phase (R22). -/
  phase : Phase
  /-- The bytes written to the output port, oldest first (R23, R133). -/
  output : List Byte
  /-- The count shown at the status port once HALT has executed (R135). -/
  report : Option Nat
  /-- The queue of host commands, oldest first (R136). -/
  queue : List Command
  /-- The blobs this machine has saved, by path, each path once (R137). -/
  files : List (Path × Blob)
  /-- The open parameters (spec/92_eei_decisions.md). -/
  params : Params
  /-- MODEL'S OWN: what the environment does at the coming polls, first things first (log entry 10). -/
  script : List EnvEvent
  /-- MODEL'S OWN: how many free values have been drawn (log entry 10). -/
  tick : Nat
  deriving DecidableEq, Repr

/-- The state after reset with the empty program image (R24, R170): one array, array 0, live; its words are the
image's, and the interface loads no image (log entry 9; `State.loadImage` and `boot` load one). The registers are 0 by
the spec's own decision D1 (log entry 1). -/
def State.reset : State :=
  { regs := Vector.replicate 8 0
    pc := 0
    halted := false
    count := 0
    mem := { arrays := [some { len := 0, cells := [] }], free := [] }
    phase := .running
    output := []
    report := none
    queue := []
    files := []
    params := Config.defaultParams
    script := []
    tick := 0 }

end Sys2Proof.Machine
end

