-- ==== Sys2Proof/Machine/Ops.lean ====
section
/-! DEFINITION. The named operations over registers, the Array Store (the five primitives of spec/20_memory.md R33 to
R37 and the fetch of spec/40_execution_cycle.md R81), the end of a step (R80, R83), entering a fault (R85, R152), the
snapshot of the Machine State (spec/50_interfaces.md R137, R138), and loading a program image (R131, R170). -/

namespace Sys2Proof.Machine

/-! ### Registers -/

/-- `x[r]`: the last value written to register r, or its reset value (R10). No register is hard-wired. -/
def State.reg (s : State) (r : Reg) : Word := s.regs[r]

/-- `x[r] <- v` (R10). -/
def State.setReg (s : State) (r : Reg) (v : Word) : State := { s with regs := s.regs.set r v }

/-! ### Word arrays -/

/-- What a word of an array reads as when nothing but zero has been written to it: arrays are made "all zero" (R35). -/
def unlistedWord : Word := 0

/-- The word at index i of a list of cells, indices rising. -/
def cellRead : List (Nat × Word) → Nat → Word
  | [], _ => unlistedWord
  | (k, v) :: cs, i => if k = i then v else cellRead cs i

/-- The cells with the word at index i made v, in canonical form: an index whose word is `unlistedWord` is not listed. -/
def cellWrite : List (Nat × Word) → Nat → Word → List (Nat × Word)
  | [], i, v => if v = unlistedWord then [] else [(i, v)]
  | (k, u) :: cs, i, v =>
    if k < i then (k, u) :: cellWrite cs i v
    else if k = i then (if v = unlistedWord then cs else (i, v) :: cs)
    else (if v = unlistedWord then (k, u) :: cs else (i, v) :: (k, u) :: cs)

/-- Word i of an array; the caller has checked that i is below the length. -/
def WordArray.read (a : WordArray) (i : Nat) : Word := cellRead a.cells i

/-- The array with word i made v; the length stays (R34). -/
def WordArray.write (a : WordArray) (i : Nat) (v : Word) : WordArray := { a with cells := cellWrite a.cells i v }

/-- "n words, each 0" (R35). -/
def WordArray.zeros (n : Nat) : WordArray := { len := n, cells := [] }

/-- The cells of a list of words whose first word has index k, in canonical form. -/
def cellsFrom : Nat → List Word → List (Nat × Word)
  | _, [] => []
  | k, w :: ws => if w = unlistedWord then cellsFrom (k + 1) ws else (k, w) :: cellsFrom (k + 1) ws

/-- The array that holds exactly these words, word k at index k. -/
def WordArray.ofWords (ws : List Word) : WordArray := { len := ws.length, cells := cellsFrom 0 ws }

/-- The canonical form of an array: its length is one an allocation can have (R31), the listed indices rise strictly
and are below the length, and no listed word is `unlistedWord`. -/
abbrev WordArray.wf (a : WordArray) : Prop :=
  a.len < 2 ^ 32 ∧ a.cells.Pairwise (fun p q => p.1 < q.1) ∧ ∀ p ∈ a.cells, p.1 < a.len ∧ p.2 ≠ unlistedWord

/-! ### The Array Store -/

/-- The array count N, the number of handles ever minted, counting handle 0 (R16). -/
def Memory.count (m : Memory) : Nat := m.arrays.length

/-- The live array of a handle; `none` when the handle is free or unminted (R32). -/
def Memory.lookup (m : Memory) (h : Nat) : Option WordArray := m.arrays.getD h none

/-- `live(h)` (R32). -/
def Memory.live (m : Memory) (h : Nat) : Bool := (m.lookup h).isSome

/-- The total length of all live arrays (R35, R49). -/
def Memory.liveWords (m : Memory) : Nat := (m.arrays.map fun a => a.elim 0 WordArray.len).sum

/-- The store with the array of handle h replaced: a live array, or `none` to discard it. -/
def Memory.put (m : Memory) (h : Nat) (a : Option WordArray) : Memory := { m with arrays := m.arrays.set h a }

/-- The store's invariants. Every array is in canonical form; the handles fit 32 bits (R35); handle 0 is live (R18 a,
R32); no handle is twice in `free_handles` (R18 f); and a handle is in `free_handles` exactly when it is below the
array count and not live (R18 b, g). -/
abbrev Memory.wf (m : Memory) : Prop :=
  (∀ h < m.count, ∀ a, m.lookup h = some a → a.wf) ∧
  m.count ≤ 2 ^ 32 ∧
  m.live 0 = true ∧
  m.free.Nodup ∧
  (∀ h ∈ m.free, h < m.count ∧ m.live h = false) ∧
  (∀ h < m.count, m.live h = false → h ∈ m.free)

/-- `MemRead((h, i), 1)` (R33): handle before index (R153). -/
def memRead (m : Memory) (h i : Word) : Except Fault Word :=
  match m.lookup h.toNat with
  | none => .error (.handle h)
  | some a => if i.toNat < a.len then .ok (a.read i.toNat) else .error (.index h i)

/-- `MemWrite((h, i), 1, v)` (R34): exactly one word changes, and no length. -/
def memWrite (m : Memory) (h i v : Word) : Except Fault Memory :=
  match m.lookup h.toNat with
  | none => .error (.handle h)
  | some a => if i.toNat < a.len then .ok (m.put h.toNat (some (a.write i.toNat v))) else .error (.index h i)

/-- Whether an allocation of n words would exceed a bounded `STORE_CAPACITY_WORDS` (R35, R49). -/
def exceedsCapacity (capacity : Option Nat) (m : Memory) (n : Nat) : Bool :=
  match capacity with
  | none => false
  | some cap => cap < m.liveWords + n

/-- `Alloc(n)` (R35): the most recently freed handle if there is one, else a new handle equal to the array count. The
capacity check precedes both, and nothing is changed when it fails (log entry 17). -/
def memAlloc (capacity : Option Nat) (m : Memory) (n : Word) : Except Fault (Word × Memory) :=
  if exceedsCapacity capacity m n.toNat then .error (.alloc n)
  else
    match m.free with
    | h :: rest => .ok (BitVec.ofNat 32 h, { (m.put h (some (WordArray.zeros n.toNat))) with free := rest })
    | [] =>
      if 2 ^ 32 ≤ m.count then .error (.alloc n)
      else .ok (BitVec.ofNat 32 m.count, { m with arrays := m.arrays ++ [some (WordArray.zeros n.toNat)] })

/-- `Free(h)` (R36): the array is discarded and its handle pushed on the free-handle stack. -/
def memFree (m : Memory) (h : Word) : Except Fault Memory :=
  if h = 0 then .error .free0
  else
    match m.lookup h.toNat with
    | none => .error (.freeDead h)
    | some _ => .ok { (m.put h.toNat none) with free := h.toNat :: m.free }

/-- `CopyToZero(h)` (R37), for h not 0: array 0 becomes a copy of array h; array h stays as it is. -/
def memCopyToZero (m : Memory) (h : Word) : Except Fault Memory :=
  match m.lookup h.toNat with
  | none => .error (.handle h)
  | some a => .ok (m.put 0 (some a))

/-- The word the fetch reads, `arrays[0][pc]`, from the array as it is at that moment (R47, R81). -/
def memFetch (m : Memory) (pc : Nat) : Except Fault Word :=
  match m.lookup 0 with
  | none => .error (.fetch pc)
  | some a => if pc < a.len then .ok (a.read pc) else .error (.fetch pc)

/-! ### Outcomes, and the parts of a step around execute -/

/-- A primitive's result as a step's outcome: a next state, or the fault it raised. -/
def outcome (r : Except Fault State) : Host.Outcome State Fault Refusal :=
  match r with
  | .ok s => .next s
  | .error f => .fault f

/-- Sub-step 1 of a step: the fetched word, read at the finger (R81). -/
def State.fetch (s : State) : Except Fault Word := memFetch s.mem s.pc

/-- The finger after the fetch: it holds the index of the following word during execute (R12, R81). -/
def State.afterFetch (s : State) : State := { s with pc := s.pc + 1 }

/-- Sub-step 4 and the end of a step (R80, R83): the instruction is counted, and if `halted` the phase becomes Halted.
An IN that still waits is not counted yet (R82); its count comes when its answer has been written. -/
def State.retire (s : State) : State :=
  match s.phase with
  | .waitingInput _ => s
  | p => { s with count := s.count + 1, phase := if s.halted then .halted else p }

/-- The end of a step, for every outcome of execute: a fault is not counted (R83). -/
def retireOutcome : Host.Outcome State Fault Refusal → Host.Outcome State Fault Refusal
  | .next s => .next s.retire
  | .fault f => .fault f
  | .refused r => .refused r

/-- Entering a fault (R85, R152): the phase becomes Faulted(F) and nothing is saved, written or counted; the finger
keeps the increment of the fetch, but for `F_FETCH`. There is no return from it (R154): a faulted machine stays. The
state given is the one before the faulting step. -/
def State.enterFault (s : State) (f : Fault) : State :=
  match s.phase, f with
  | .faulted _, _ => s
  | _, .fetch _ => { s with phase := .faulted f }
  | _, _ => { s with phase := .faulted f, pc := s.pc + 1 }

/-! ### Snapshots of the Machine State -/

/-- The complete Machine State (R137). The phase, the pending register field, the ports and the queue are not in it. -/
def State.snapshot (s : State) : Snapshot :=
  { regs := s.regs, pc := s.pc, halted := s.halted, count := s.count, mem := s.mem }

/-- The state with the entire Machine State replaced (R138); "nothing of the old state survives". The phase stays. -/
def State.restore (s : State) (m : Snapshot) : State :=
  { s with regs := m.regs, pc := m.pc, halted := m.halted, count := m.count, mem := m.mem }

/-- What a blob must record to be the Machine State of this hardware: the store's invariants, and a finger below 2^32
(R13, R18). A blob that records anything else is malformed (log entry 14). -/
abbrev Snapshot.wf (m : Snapshot) : Prop := m.mem.wf ∧ m.pc < 2 ^ 32

/-! ### The program image -/

/-- The state with the image's words as the initial contents of array 0 (R24, R131). -/
def State.loadImage (s : State) (words : List Word) : State :=
  { s with mem := s.mem.put 0 (some (WordArray.ofWords words)) }

/-- Reset with a program image of bytes (R170): the length check and the byte-to-word conversion are the host's (D20);
the image may have any length up to `IMAGE_MAX_WORDS` words (R131). -/
def boot (p : Params) (image : List Byte) : Host.Outcome State Fault Refusal :=
  match imageWords image with
  | none => .refused .imageLength
  | some words =>
    if p.imageMaxWords < words.length then .refused .imageTooLong
    else .next ({ State.reset with params := p }.loadImage words)

/-- The store with word w at index i of array 0, array 0 made live and long enough: how a test places one word where
the fetch finds it. -/
def Memory.placeWord (m : Memory) (i : Nat) (w : Word) : Memory :=
  match m.arrays with
  | some a :: rest => { m with arrays := some { (a.write i w) with len := max a.len (i + 1) } :: rest }
  | none :: rest => { m with arrays := some { len := i + 1, cells := cellWrite [] i w } :: rest }
  | [] => { m with arrays := [some { len := i + 1, cells := cellWrite [] i w }] }

/-- The state with one word stored where the next fetch reads, and the phase Running so that the very next step
fetches it. -/
def State.placeFetchWord (s : State) (w : Word) : State :=
  { s with mem := s.mem.placeWord s.pc w, phase := .running, halted := false }

end Sys2Proof.Machine
end

