-- ==== Sys2Proof/Machine/Flags.lean ====
section
/-! DEFINITION. The arithmetic of the four arithmetic instructions (spec/43_arithmetic.md R104). There are NO FLAGS,
condition codes or predicates on this hardware (spec/10_state.md R19): carries and overflow are lost, "never overflow
visibly", so an operation is its 32-bit result and nothing else. Each is computed exactly on the unsigned values and
narrowed at the end. -/

namespace Sys2Proof.Machine

/-- `(x + y) mod 2^32` (R100). -/
def addWords (x y : Word) : Word := BitVec.ofNat 32 (x.toNat + y.toNat)

/-- `(x * y) mod 2^32`, the low 32 bits of the 64-bit product (R101). -/
def mulWords (x y : Word) : Word := BitVec.ofNat 32 (x.toNat * y.toNat)

/-- `floor(x / y)` of the unsigned operands; a zero divisor raises `F_DIV0`, never a value (R102,
spec/90_conflicts.md C1). -/
def divWords (x y : Word) : Except Fault Word :=
  if y = 0 then .error .div0 else .ok (BitVec.ofNat 32 (x.toNat / y.toNat))

/-- `~(x & y)`, the complement of every one of the 32 bits (R103, D5; log entry 7). -/
def nandWords (x y : Word) : Word := ~~~(x &&& y)

end Sys2Proof.Machine
end

