-- ==== Sys2Proof/Machine/Arithmetic.lean ====
section
/-! DEFINITION. Arithmetic and logic: ADD, MUL, DIV, NAND (spec/43_arithmetic.md). -/

namespace Sys2Proof.Machine

/-- ADD (R100): `x[a] <- (x[b] + x[c]) mod 2^32`. No faults, no flags. -/
def execAdd (a b c : Reg) (s : State) : Host.Outcome State Fault Refusal :=
  .next (s.setReg a (addWords (s.reg b) (s.reg c)))

/-- MUL (R101): `x[a] <- (x[b] * x[c]) mod 2^32`. No faults, no flags. -/
def execMul (a b c : Reg) (s : State) : Host.Outcome State Fault Refusal :=
  .next (s.setReg a (mulWords (s.reg b) (s.reg c)))

/-- DIV (R102): `x[a] <- floor(x[b] / x[c])`, unsigned; `F_DIV0` when `x[c] = 0`, before `x[a]` is written. -/
def execDiv (a b c : Reg) (s : State) : Host.Outcome State Fault Refusal :=
  outcome ((divWords (s.reg b) (s.reg c)).map fun v => s.setReg a v)

/-- NAND (R103): `x[a] <- ~(x[b] & x[c])`. No faults, no flags. -/
def execNand (a b c : Reg) (s : State) : Host.Outcome State Fault Refusal :=
  .next (s.setReg a (nandWords (s.reg b) (s.reg c)))

end Sys2Proof.Machine
end

