-- ==== Sys2Proof/Machine/Operands.lean ====
section
/-! DEFINITION. The operand forms (spec/30_encoding.md R66): every operand is a general register named by a 3-bit
field (`State.reg`, `State.setReg` in Ops.lean), or ORTHO's immediate. Here are the conversions between the 32-bit
register and the narrower values that reach it or leave it (spec/43_arithmetic.md R104). There are no addressing
modes, no shifted or indexed forms (R66). -/

namespace Sys2Proof.Machine

/-- `zext_32(imm)`: the 25-bit immediate as a 32-bit word, upper 7 bits 0; not shifted, scaled or sign-extended (R66,
R91). -/
def immediateOperand (imm : Word) : Word := (imm.setWidth 25).setWidth 32

/-- `x[c][7:0]`: the byte OUT emits; bits 31 to 8 are dropped (R115). -/
def lowByte (w : Word) : Byte := w.setWidth 8

/-- What IN writes for an answer: a byte zero-extended to 32 bits, or `0xFFFFFFFF` at end of stream (R116). -/
def answerWord : Answer → Word
  | .byte v => v.setWidth 32
  | .eof => 0xFFFFFFFF

end Sys2Proof.Machine
end

