-- ==== Sys2Proof/Machine/ArrayAccess.lean ====
section
/-! DEFINITION. Array access: INDEX, the load, and AMEND, the store (spec/42_array_access.md). -/

namespace Sys2Proof.Machine

/-- INDEX (R95): `x[a] <- MemRead((x[b], x[c]), 1)`; `F_HANDLE`, then `F_INDEX`, before `x[a]` is written. -/
def execIndex (a b c : Reg) (s : State) : Host.Outcome State Fault Refusal :=
  outcome ((memRead s.mem (s.reg b) (s.reg c)).map fun v => s.setReg a v)

/-- AMEND (R96): `MemWrite((x[a], x[b]), 1, x[c])`; field a names the handle register and b the index register. -/
def execAmend (a b c : Reg) (s : State) : Host.Outcome State Fault Refusal :=
  outcome ((memWrite s.mem (s.reg a) (s.reg b) (s.reg c)).map fun m => { s with mem := m })

end Sys2Proof.Machine
end

