-- ==== Sys2Proof/Machine/ArrayManagement.lean ====
section
/-! DEFINITION. Array management: ALLOC and ABANDON (spec/44_array_management.md). -/

namespace Sys2Proof.Machine

/-- ALLOC (R110): `x[b] <- Alloc(x[c])`; the length is read before the destination is written; `F_ALLOC` before any
state changes. -/
def execAlloc (b c : Reg) (s : State) : Host.Outcome State Fault Refusal :=
  outcome ((memAlloc s.params.storeCapacity s.mem (s.reg c)).map fun r => { s with mem := r.2 }.setReg b r.1)

/-- ABANDON (R111): `Free(x[c])`; `F_FREE0`, `F_FREE_DEAD`; no register changes. -/
def execAbandon (c : Reg) (s : State) : Host.Outcome State Fault Refusal :=
  outcome ((memFree s.mem (s.reg c)).map fun m => { s with mem := m })

end Sys2Proof.Machine
end

