-- ==== Sys2Proof/Machine/Control.lean ====
section
/-! DEFINITION. Control: HALT, LOADPROG, and the undefined operator values 14 and 15 (spec/46_control.md). -/

namespace Sys2Proof.Machine

/-- HALT (R120): `halted <- true`. The count shown at the status port is the counter after sub-step 4 of this step, which
counts the HALT (R135, spec/90_conflicts.md C8, D15; log entry 20). The phase becomes Halted at the end of the step. -/
def execHalt (s : State) : Host.Outcome State Fault Refusal :=
  .next { s with halted := true, report := some (s.count + 1) }

/-- LOADPROG (R121): both registers are read first; array 0 becomes a copy of array `x[b]` when that is not 0
(`F_HANDLE` before anything changes); then `pc <- x[c]`, which is not checked here. -/
def execLoadprog (b c : Reg) (s : State) : Host.Outcome State Fault Refusal :=
  if s.reg b = 0 then .next { s with pc := (s.reg c).toNat }
  else outcome ((memCopyToZero s.mem (s.reg b)).map fun m => { s with mem := m, pc := (s.reg c).toNat })

/-- NOP14 (R122): nothing. -/
def execNop14 (s : State) : Host.Outcome State Fault Refusal := .next s

/-- NOP15 (R122): nothing. -/
def execNop15 (s : State) : Host.Outcome State Fault Refusal := .next s

end Sys2Proof.Machine
end

