-- ==== Sys2Proof/Machine/DataMovement.lean ====
section
/-! DEFINITION. Data movement: CMOV and ORTHO (spec/41_data_movement.md). Each meaning is sub-step 3 of the step; the
finger already points past the instruction (R80). -/

namespace Sys2Proof.Machine

/-- CMOV (R90): if `x[c]` is not 0 as a whole 32-bit value, `x[a] <- x[b]`. No faults. -/
def execCmov (a b c : Reg) (s : State) : Host.Outcome State Fault Refusal :=
  .next (if s.reg c = 0 then s else s.setReg a (s.reg b))

/-- ORTHO (R91): `x[s] <- zext_32(imm)`. No faults. -/
def execOrtho (d : Reg) (imm : Word) (s : State) : Host.Outcome State Fault Refusal :=
  .next (s.setReg d (immediateOperand imm))

end Sys2Proof.Machine
end

