-- ==== Sys2Proof/Machine/Ports.lean ====
section
/-! DEFINITION. The block's ports (spec/50_interfaces.md): the output byte (R133), the input wait (R134, R136) with the
host commands it may apply (R137 to R140), and the command queue. -/

namespace Sys2Proof.Machine

/-- `OutByte(v)`: one byte handed to the environment and flushed; it is always accepted (R133, D19). -/
def State.emit (s : State) (v : Byte) : State := { s with output := s.output ++ [v] }

/-- An external controller enqueues a command (R136): first in, first out. Without a command port there is no queue to
reach. -/
def State.enqueue (s : State) (c : Command) : State :=
  if s.params.hostCommands then { s with queue := s.queue ++ [c] } else s

/-- The blob at a path, where this machine has saved one; paths are compared as strings (log entry 31). -/
def fileLookup : List (Path × Blob) → Path → Option Blob
  | [], _ => none
  | (q, b) :: fs, p => if q = p then some b else fileLookup fs p

/-- The files with a blob at a path, each path listed once. DESIGN CHOICE (log entry 31): paths are compared as strings,
so two spellings are two paths; the spec says only "a filesystem path string" (R136). -/
def fileStore : List (Path × Blob) → Path → Blob → List (Path × Blob)
  | [], p, b => [(p, b)]
  | (q, c) :: fs, p, b => if q = p then (p, b) :: fs else (q, c) :: fileStore fs p b

/-- What the host finds at a path: the blob this machine saved there, else a free value (log entry 15). -/
def State.blobAt (s : State) (p : Path) : Blob := (fileLookup s.files p).getD (Config.hostFile s.tick p)

/-- `Save(path)`: a snapshot of the complete Machine State is stored at the path; nothing in the block changes (R137). -/
def State.save (s : State) (p : Path) : State := { s with files := fileStore s.files p (.snapshot s.snapshot) }

/-- `Load(path)`: the entire Machine State is replaced by the blob's, the phase stays WaitingInput with the same
register field (R138). An unreadable or malformed blob changes nothing (R140; log entry 14). -/
def State.load (s : State) (p : Path) : State :=
  let t := { s with tick := s.tick + 1 }
  match s.blobAt p with
  | .snapshot m => if m.wf then t.restore m else t
  | .unreadable => t

/-- One command applied, its file operation having succeeded. -/
def State.applyCommand (s : State) : Command → State
  | .save p => s.save p
  | .load p => s.load p

/-- One queued command taken from the head of the queue and applied (R136). A command whose file operation fails has
no effect on the block (R140). DESIGN CHOICE (log entry 30): a Save that fails leaves the blob saved at its path before
as it was, loadable; the spec says nothing of the file. DESIGN CHOICE (log entry 32): a command that is tried is taken
from the queue whatever becomes of it, and is not tried again. -/
def State.serve (s : State) (ok : Bool) : State :=
  match s.queue with
  | [] => s
  | c :: rest =>
    let t := { s with queue := rest }
    if ok then t.applyCommand c else t

/-- What the environment does at this poll, and the state with that event consumed: the script's next event; with the
script used up, end of stream for a finite input list, or a free value for the oracle (R134, D14; log entry 10). -/
def State.nextEvent (s : State) : EnvEvent × State :=
  match s.script with
  | e :: rest => (e, { s with script := rest })
  | [] =>
    match s.params.inputModel with
    | .finite => (.answer .eof, s)
    | .oracle => (Config.envEvent s.tick, { s with tick := s.tick + 1 })

/-- `HOST_COMMANDS = absent` drops R136 to R140: an event of the command port is then no event (R136). -/
def State.serveEvent (s : State) (ok : Bool) : State := if s.params.hostCommands then s.serve ok else s

/-- The IN's completion: the answer is written to register c of the Machine State that is current (R116, R139), and the
wait is over. -/
def State.completeInput (s : State) (c : Reg) (a : Answer) : State :=
  { s.setReg c (answerWord a) with phase := .running }

/-- One event of a wait for register c, already consumed. -/
def State.applyEvent (s : State) (c : Reg) : EnvEvent → State
  | .nothing => s
  | .arrive cmd => s.enqueue cmd
  | .serve ok => s.serveEvent ok
  | .answer a => s.completeInput c a

/-- One poll of the wait for register c (R116, R136): at most one command is applied, or the answer is taken. -/
def State.poll (s : State) (c : Reg) : State := s.nextEvent.2.applyEvent c s.nextEvent.1

/-- Beginning an IN's wait (R82): the finger already points past the IN, and the IN is not counted yet. -/
def State.beginInput (s : State) (c : Reg) : State := { s with phase := .waitingInput c }

end Sys2Proof.Machine
end

