-- ==== Sys2Proof/Machine/InputOutput.lean ====
section
/-! DEFINITION. Input and output: OUT and IN (spec/45_io.md). -/

namespace Sys2Proof.Machine

/-- OUT (R115): `OutByte(x[c][7:0])`. No faults. -/
def execOutput (c : Reg) (s : State) : Host.Outcome State Fault Refusal :=
  .next (s.emit (lowByte (s.reg c)))

/-- IN (R116): the wait begins and is polled once; if the input port answers at that poll the IN completes in this step,
else the phase stays WaitingInput(c) and the coming steps poll on (R82; log entry 11). No faults. -/
def execInput (c : Reg) (s : State) : Host.Outcome State Fault Refusal :=
  .next ((s.beginInput c).poll c)

end Sys2Proof.Machine
end

