-- ==== Sys2Proof/Machine/Dispatch.lean ====
section
/-! DEFINITION. Sub-step 3 of a step: execute the decoded instruction (spec/40_execution_cycle.md R80). -/

namespace Sys2Proof.Machine

/-- Execute, one arm per instruction (R80). The finger already points past the instruction (R81). -/
def exec (i : Instr) (s : State) : Host.Outcome State Fault Refusal :=
  match i with
  | .cmov a b c => Sys2Proof.Machine.execCmov a b c s
  | .index a b c => Sys2Proof.Machine.execIndex a b c s
  | .amend a b c => Sys2Proof.Machine.execAmend a b c s
  | .add a b c => Sys2Proof.Machine.execAdd a b c s
  | .mul a b c => Sys2Proof.Machine.execMul a b c s
  | .div a b c => Sys2Proof.Machine.execDiv a b c s
  | .nand a b c => Sys2Proof.Machine.execNand a b c s
  | .halt => Sys2Proof.Machine.execHalt s
  | .alloc b c => Sys2Proof.Machine.execAlloc b c s
  | .abandon c => Sys2Proof.Machine.execAbandon c s
  | .output c => Sys2Proof.Machine.execOutput c s
  | .input c => Sys2Proof.Machine.execInput c s
  | .loadprog b c => Sys2Proof.Machine.execLoadprog b c s
  | .ortho d imm => Sys2Proof.Machine.execOrtho d imm s
  | .nop14 => Sys2Proof.Machine.execNop14 s
  | .nop15 => Sys2Proof.Machine.execNop15 s

end Sys2Proof.Machine
end

