-- ==== Sys2Proof/Machine/Cycle.lean ====
section
/-! DEFINITION. The two ways a machine that is not stopped takes a step (spec/40_execution_cycle.md R80 to R83): the
fetch-decode-execute cycle, and a poll of an IN's wait. -/

namespace Sys2Proof.Machine

/-- A step in phase Running: fetch, increment the finger, decode, execute, count (R80, R81, R83). -/
def runCycle (s : State) : Host.Outcome State Fault Refusal :=
  match s.fetch with
  | .ok w => retireOutcome (exec (decode w) s.afterFetch)
  | .error f => .fault f

/-- A step in phase WaitingInput(c): one poll of the wait; when the answer has been written the IN is counted (R82,
R116). -/
def waitCycle (c : Reg) (s : State) : Host.Outcome State Fault Refusal := .next (s.poll c).retire

end Sys2Proof.Machine
end

