-- ==== Sys2Proof/Machine/Step.lean ====
section
/-! DEFINITION. One step of the machine (spec/40_execution_cycle.md R80 to R86), and where a word is placed for the next
step to fetch. -/

namespace Sys2Proof.Machine

/-- One step, by phase. Running: the fetch-decode-execute cycle (R80). WaitingInput(c): one poll of the wait (R82, R116,
R136). Halted: no step executes and the state stays (R84; log entry 3). Faulted(F): terminal, the fault stands (R85,
R152; log entry 2). The phase decides where it and the halted flag disagree (log entry 29). -/
def step (s : State) : Host.Outcome State Fault Refusal :=
  match s.phase with
  | .running => runCycle s
  | .waitingInput c => waitCycle c s
  | .halted => .next s
  | .faulted f => .fault f

/-- `s` with the table's word stored where the next step fetches, and the machine Running (log entry 9). -/
def State.withFetchWord (s : State) (nbits w : Nat) : State := s.placeFetchWord (tableWord nbits w)

end Sys2Proof.Machine
end

