-- ==== Sys2Proof/Machine/Run.lean ====
section
/-! DEFINITION. The machine's own transition, with the phase Faulted(F) of spec/10_state.md R22 and
spec/40_execution_cycle.md R85 entered where `step` answers a fault (log entry 2). -/

namespace Sys2Proof.Machine

/-- The state after one step, whatever its outcome: the next state; after a fault the Faulted state of R85, R152. No step
answers a refusal. -/
def State.advance (s : State) : State :=
  match step s with
  | .next t => t
  | .fault f => s.enterFault f
  | .refused _ => s

end Sys2Proof.Machine
end

