-- ==== Sys2Proof/Safety.lean ====
section
/-! DEFINITION. The terms claims are stated in: the views of memory, the machine's invariant, and what is left unchanged
(frames). -/

namespace Sys2Proof.Machine

/-! ### Views of the Array Store -/

/-- The word at `(h, i)`, where h is live and i is below its length; `none` where an access faults (R33). -/
def State.wordAt (s : State) (h i : Nat) : Option Word :=
  match s.mem.lookup h with
  | none => none
  | some a => if i < a.len then some (a.read i) else none

/-- `len(h)` of a live handle (R31); `none` for a handle that is not live. -/
def State.lenAt (s : State) (h : Nat) : Option Nat := (s.mem.lookup h).map WordArray.len

/-- The array count N (R16). -/
def State.arrayCount (s : State) : Nat := s.mem.count

/-! ### The invariant -/

/-- The machine's invariant: the store's (R18 a, b, f, g; R31; R35), the finger below 2^32 (R13), and the phase and the
halted flag agree (R22): Running has `halted` false, Halted has it true. A waiting machine may hold a loaded `halted`
(R139). -/
abbrev State.Inv (s : State) : Prop :=
  s.mem.wf ∧ s.pc < 2 ^ 32 ∧
  (s.phase = .running → s.halted = false) ∧ (s.phase = .halted → s.halted = true)

/-! ### The polls of an IN -/

/-- The machine's next step is a poll of the wait of an IN for register c: it waits already, or it is about to execute
that IN, whose own step polls once (spec/40_execution_cycle.md R82; log entry 11). -/
def State.Polls (s : State) (c : Reg) : Prop :=
  s.phase = .waitingInput c ∨ (s.phase = .running ∧ ∃ w, s.wordAt 0 s.pc = some w ∧ decode w = .input c)

/-- The machine's next step applies a Load that takes effect (spec/50_interfaces.md R138): it polls, the event is a
command served whose file operation succeeds, the command port is present, the oldest command is a Load, and its path
holds a blob that records a Machine State (log entry 14). -/
def State.LoadsNow (s : State) : Prop :=
  (∃ c, s.Polls c) ∧ s.nextEvent.1 = .serve true ∧ s.params.hostCommands = true ∧
  ∃ p q m, s.queue = .load p :: q ∧ s.nextEvent.2.blobAt p = .snapshot m ∧ m.wf

/-! ### Frames -/

/-- Every register but `d` is as before. -/
def OtherRegsSame (d : Reg) (s t : State) : Prop := ∀ r, r ≠ d → t.reg r = s.reg r

/-- Every register is as before. -/
def RegsSame (s t : State) : Prop := ∀ r, t.reg r = s.reg r

/-- Every word of every array, every length, the array count and the free-handle stack are as before. -/
def StoreSame (s t : State) : Prop :=
  (∀ h i, t.wordAt h i = s.wordAt h i) ∧ (∀ h, t.lenAt h = s.lenAt h) ∧
  t.arrayCount = s.arrayCount ∧ t.mem.free = s.mem.free

/-- Every word and the length of every array but the one of handle `h` are as before. -/
def OtherArraysSame (h : Nat) (s t : State) : Prop :=
  ∀ g, g ≠ h → (∀ i, t.wordAt g i = s.wordAt g i) ∧ t.lenAt g = s.lenAt g

/-- The halted flag, the count and the phase are as before. -/
def ControlSame (s t : State) : Prop := t.halted = s.halted ∧ t.count = s.count ∧ t.phase = s.phase

/-- The ports are as before: output bytes, status report, command queue, saved files. -/
def PortsSame (s t : State) : Prop :=
  t.output = s.output ∧ t.report = s.report ∧ t.queue = s.queue ∧ t.files = s.files

/-- The parameters and the model's own fields are as before. -/
def ModelSame (s t : State) : Prop := t.params = s.params ∧ t.script = s.script ∧ t.tick = s.tick

/-- Nothing but registers and the Array Store may have changed. -/
def AroundSame (s t : State) : Prop := t.pc = s.pc ∧ ControlSame s t ∧ PortsSame s t ∧ ModelSame s t

/-- Nothing but register `d` may have changed. -/
def OnlyRegChanged (d : Reg) (s t : State) : Prop := OtherRegsSame d s t ∧ StoreSame s t ∧ AroundSame s t

/-- An IN for register c has its answer written (R116): a byte zero-extended, or `0xFFFFFFFF` at end of stream; nothing
else of the Machine State or of the ports has changed, but for `count` and `phase`, of which nothing is said; the event
is consumed. -/
def AnswerWritten (c : Reg) (a : Answer) (s t : State) : Prop :=
  (∀ v, a = .byte v → (t.reg c).toNat = v.toNat) ∧ (a = .eof → (t.reg c).toNat = 2 ^ 32 - 1) ∧
  OtherRegsSame c s t ∧ StoreSame s t ∧ t.pc = s.pc ∧ t.halted = s.halted ∧ PortsSame s t ∧ t.params = s.params ∧
  t.script = s.nextEvent.2.script ∧ t.tick = s.nextEvent.2.tick

/-! ### The read and write table of spec/10_state.md R11 -/

/-- The registers whose values an instruction's result depends on (R11, column "reads"). -/
def readRegs (i : Instr) (s : State) : List Reg :=
  match i with
  | .cmov _ b c => if s.reg c = 0 then [c] else [b, c]
  | .index _ b c => [b, c]
  | .amend a b c => [a, b, c]
  | .add _ b c => [b, c]
  | .mul _ b c => [b, c]
  | .div _ b c => [b, c]
  | .nand _ b c => [b, c]
  | .halt => []
  | .alloc _ c => [c]
  | .abandon c => [c]
  | .output c => [c]
  | .input _ => []
  | .loadprog b c => [b, c]
  | .ortho _ _ => []
  | .nop14 => []
  | .nop15 => []

/-- The register an instruction changes, if any (R11, column "writes"). -/
def writtenReg (i : Instr) (s : State) : Option Reg :=
  match i with
  | .cmov a _ c => if s.reg c = 0 then none else some a
  | .index a _ _ => some a
  | .amend _ _ _ => none
  | .add a _ _ => some a
  | .mul a _ _ => some a
  | .div a _ _ => some a
  | .nand a _ _ => some a
  | .halt => none
  | .alloc b _ => some b
  | .abandon _ => none
  | .output _ => none
  | .input c => some c
  | .loadprog _ _ => none
  | .ortho d _ => some d
  | .nop14 => none
  | .nop15 => none

/-! ### Canonical words -/

/-- For each operator value, one more than the largest number its used fields can make below the operator field: the
bits at and above are ignored (spec/30_encoding.md R63, R64, R65). -/
def usedFieldsBound : Nat → Nat
  | 7 => 1
  | 8 => 2 ^ 6
  | 9 => 2 ^ 3
  | 10 => 2 ^ 3
  | 11 => 2 ^ 3
  | 12 => 2 ^ 6
  | 13 => 2 ^ 28
  | 14 => 1
  | 15 => 1
  | _ => 2 ^ 9

/-- The ignored bits and unused register fields of a word are 0 (R71). -/
def IgnoredBitsZero (w : Word) : Prop := w.toNat % 2 ^ 28 < usedFieldsBound (w.toNat / 2 ^ 28)

end Sys2Proof.Machine
end

