-- ==== Sys2Proof/Certificates/Slice0/Obligations.lean ====
section
/-! DEFINITION. The statements for the provers, one definition each; OBLIGATIONS.json lists them. The terms they use
(frames, views of memory, the invariant) are in Sys2Proof/Safety.lean. -/

open Sys2Proof Sys2Proof.Machine

/-! ### Encoding -/

/-- spec/30_encoding.md R71 (the spec's notational decision D12): decoding the canonical encoding of an instruction
gives it back, and a word is the canonical encoding of its instruction exactly when its ignored bits are 0. -/
def Obligations.DecodeInvertsEncode : Prop :=
  (∀ i : Instr, i.wf = true → decode (encode i) = i) ∧
  (∀ w : Word, encode (decode w) = w ↔ IgnoredBitsZero w)

/-- spec/30_encoding.md R69 with the field places of R61 and R62: what decode gives for each operator value, the fields
named by their numbers; and every word decodes to a well-formed instruction. -/
def Obligations.DecodeReadsTheFields : Prop :=
  ∀ (w : Word) (a b c d : Reg) (imm : Word),
    (a : Nat) = w.toNat / 2 ^ 6 % 8 → (b : Nat) = w.toNat / 2 ^ 3 % 8 → (c : Nat) = w.toNat % 8 →
    (d : Nat) = w.toNat / 2 ^ 25 % 8 → imm.toNat = w.toNat % 2 ^ 25 →
    (decode w).wf = true ∧
    (w.toNat / 2 ^ 28 = 0 → decode w = .cmov a b c) ∧
    (w.toNat / 2 ^ 28 = 1 → decode w = .index a b c) ∧
    (w.toNat / 2 ^ 28 = 2 → decode w = .amend a b c) ∧
    (w.toNat / 2 ^ 28 = 3 → decode w = .add a b c) ∧
    (w.toNat / 2 ^ 28 = 4 → decode w = .mul a b c) ∧
    (w.toNat / 2 ^ 28 = 5 → decode w = .div a b c) ∧
    (w.toNat / 2 ^ 28 = 6 → decode w = .nand a b c) ∧
    (w.toNat / 2 ^ 28 = 7 → decode w = .halt) ∧
    (w.toNat / 2 ^ 28 = 8 → decode w = .alloc b c) ∧
    (w.toNat / 2 ^ 28 = 9 → decode w = .abandon c) ∧
    (w.toNat / 2 ^ 28 = 10 → decode w = .output c) ∧
    (w.toNat / 2 ^ 28 = 11 → decode w = .input c) ∧
    (w.toNat / 2 ^ 28 = 12 → decode w = .loadprog b c) ∧
    (w.toNat / 2 ^ 28 = 13 → decode w = .ortho d imm) ∧
    (w.toNat / 2 ^ 28 = 14 → decode w = .nop14) ∧
    (w.toNat / 2 ^ 28 = 15 → decode w = .nop15)

/-- A few words written out from spec/opcode_table.json's canonical examples decode to the instructions they stand for. -/
def Obligations.WordsOfTheTableDecode : Prop :=
  decode 0x00000053 = .cmov 1 2 3 ∧ decode 0x1000010A = .index 4 1 2 ∧ decode 0x20000053 = .amend 1 2 3 ∧
  decode 0x50000177 = .div 5 6 7 ∧ decode 0x8000001C = .alloc 3 4 ∧ decode 0x90000005 = .abandon 5 ∧
  decode 0xA0000006 = .output 6 ∧ decode 0xC0000011 = .loadprog 2 1 ∧ decode 0xD6000048 = .ortho 3 0x48 ∧
  decode 0x7ABCDEF8 = .halt

/-- spec/30_encoding.md R64 and R65 (derived there, decision D4; log entry 6): two words with the same operator that
agree on the fields the operator uses decode alike, whatever their other bits. -/
def Obligations.IgnoredBitsChangeNothing : Prop :=
  ∀ w v : Word, w.toNat / 2 ^ 28 = v.toNat / 2 ^ 28 →
    w.toNat % usedFieldsBound (w.toNat / 2 ^ 28) = v.toNat % usedFieldsBound (w.toNat / 2 ^ 28) → decode w = decode v

/-- spec/46_control.md R122 and spec/30_encoding.md R67: the words from `0xE0000000` on, and no others, are
no-operations that are fetched and counted, and nothing else changes; no bit pattern at all is refused. -/
def Obligations.UndefinedOperatorsAreCountedNops : Prop :=
  (∀ s : State, exec .nop14 s = .next s ∧ exec .nop15 s = .next s) ∧
  ((encode .nop14).toNat = 0xE0000000 ∧ (encode .nop15).toNat = 0xF0000000) ∧
  (∀ w : Word, (decode w = .nop14 ∨ decode w = .nop15) ↔ 0xE0000000 ≤ w.toNat) ∧
  (∀ (w : Word) (s : State), 0xE0000000 ≤ w.toNat → s.phase = .running → s.halted = false → s.wordAt 0 s.pc = some w →
    step s = .next { s with pc := s.pc + 1, count := s.count + 1 }) ∧
  (∀ (w : Word) (s : State) (r : Refusal), exec (decode w) s ≠ .refused r)

/-! ### The image, reset and boot -/

/-- spec/20_memory.md R39: a program image is its bytes taken four at a time, big-endian, in file
order, so an instruction's operator is the high four bits of its first byte; inside the block
a written word is read back unchanged, by a data read and by the fetch. -/
def Obligations.ImageBytesAreBigEndian : Prop :=
  (∀ bs : List Byte, imageWords bs = none ↔ bs.length % 4 ≠ 0) ∧
  (∀ (bs : List Byte) (ws : List Word), imageWords bs = some ws →
    bs.length = 4 * ws.length ∧
    ∀ k < ws.length, (ws.getD k 0).toNat =
      (bs.getD (4 * k) 0).toNat * 2 ^ 24 + (bs.getD (4 * k + 1) 0).toNat * 2 ^ 16 +
      (bs.getD (4 * k + 2) 0).toNat * 2 ^ 8 + (bs.getD (4 * k + 3) 0).toNat ∧
      opField (ws.getD k 0) = (bs.getD (4 * k) 0).toNat / 2 ^ 4) ∧
  (∀ (m m' : Memory) (h i v : Word), m.wf → memWrite m h i v = .ok m' →
    memRead m' h i = .ok v ∧ (h = 0 → memFetch m' i.toNat = .ok v))

/-- spec/70_reset_and_hazards.md R170 with spec/10_state.md R24: what reset does with a program image. The registers at
0, the bound on the image and the count at 0 are the spec's own decisions D1, D2, D3 (log entries 1, 5, 25). -/
def Obligations.BootLoadsTheImage : Prop :=
  ∀ (p : Params) (image : List Byte),
    (image.length % 4 ≠ 0 → boot p image = .refused .imageLength) ∧
    ∀ ws : List Word, imageWords image = some ws →
      (p.imageMaxWords < ws.length → boot p image = .refused .imageTooLong) ∧
      (ws.length ≤ p.imageMaxWords → ∃ t, boot p image = .next t ∧
        (∀ r, t.reg r = 0) ∧ t.pc = 0 ∧ t.halted = false ∧ t.count = 0 ∧ t.phase = .running ∧
        t.arrayCount = 1 ∧ t.mem.free = [] ∧ t.lenAt 0 = some ws.length ∧
        (∀ k w, ws[k]? = some w → t.wordAt 0 k = some w) ∧ t.output = [] ∧ t.params = p ∧
        (p.imageMaxWords < 2 ^ 32 → t.Inv))

/-- The state after reset (spec/10_state.md R24) meets the machine's invariant, and holds what the table says; the
registers at 0 and the count at 0 are decisions D1 and D3 (log entries 1, 5), the empty image is log entry 9. -/
def Obligations.ResetMeetsTheInvariant : Prop :=
  State.reset.Inv ∧ State.reset.pc = 0 ∧ State.reset.halted = false ∧ State.reset.phase = .running ∧
  State.reset.arrayCount = 1 ∧ State.reset.lenAt 0 = some 0 ∧ State.reset.mem.free = [] ∧ State.reset.output = [] ∧
  State.reset.count = 0 ∧ ∀ r, State.reset.reg r = 0

/-- spec/70_reset_and_hazards.md R171: the first instruction executed is word 0 of the program image, and an image of no
words is accepted and faults at the first fetch. -/
def Obligations.FirstInstructionIsWordZero : Prop :=
  (∀ p : Params, ∃ t, boot p [] = .next t) ∧
  ∀ (p : Params) (image : List Byte) (ws : List Word) (t : State),
    imageWords image = some ws → boot p image = .next t →
    (∀ w rest, ws = w :: rest → step t = retireOutcome (exec (decode w) { t with pc := 1 })) ∧
    (ws = [] → step t = .fault (.fetch 0))

/-! ### The step -/

/-- spec/10_state.md R10: a register read returns the last value written to that register; writing one leaves the
others; no register is hard-wired. -/
def Obligations.RegisterReadReturnsLastWrite : Prop :=
  ∀ (s : State) (r q : Reg) (v : Word), (s.setReg r v).reg q = if q = r then v else s.reg q

/-- spec/40_execution_cycle.md R80: a step fetches the word at the finger, increments the finger, decodes, executes,
counts, and enters phase Halted if `halted` is set; a fault ends it; an IN that waits is not counted yet. -/
def Obligations.StepRunsTheDecodedInstruction : Prop :=
  ∀ (s : State) (w : Word) (i : Instr),
    s.phase = .running → s.wordAt 0 s.pc = some w → decode w = i →
    (∀ f, exec i { s with pc := s.pc + 1 } = .fault f → step s = .fault f) ∧
    (∀ u, exec i { s with pc := s.pc + 1 } = .next u → (∀ c, u.phase ≠ .waitingInput c) →
      step s = .next { u with count := u.count + 1, phase := if u.halted then .halted else u.phase }) ∧
    (∀ u c, exec i { s with pc := s.pc + 1 } = .next u → u.phase = .waitingInput c → step s = .next u)

/-- The fetch of spec/40_execution_cycle.md R81 (decisions D8, D9; log entries 2, 22): a finger at or past the end of
array 0 raises `F_FETCH`, and the machine is then Faulted. -/
def Obligations.FetchPastTheEndFaults : Prop :=
  ∀ (s : State) (n : Nat), s.phase = .running → s.lenAt 0 = some n → n ≤ s.pc →
    step s = .fault (.fetch s.pc) ∧ s.advance.phase = .faulted (.fetch s.pc)

/-- spec/40_execution_cycle.md R84: once HALT has executed no further steps occur, `halted` is true, and the state stays
for ever. -/
def Obligations.HaltedMachineStays : Prop :=
  (∀ (s : State) (n : Nat), s.phase = .halted → core.run n s = .next s) ∧
  (∀ (s : State) (w : Word), s.phase = .running → s.wordAt 0 s.pc = some w → decode w = .halt →
    ∃ t, step s = .next t ∧ t.halted = true ∧ t.phase = .halted ∧ ∀ n, core.run n t = .next t)

/-- The Faulted phase (spec/40_execution_cycle.md R85, spec/60_exceptions.md R152, R154; decision D8; log entries 2, 21):
after a fault the machine is Faulted with that fault, no output byte and no report has been given, and it stays Faulted
for ever. Nothing is said of the values a Faulted state holds (R85). -/
def Obligations.FaultedMachineStays : Prop :=
  ∀ (s : State) (f : Fault), step s = .fault f → (∀ g, s.phase ≠ .faulted g) →
    s.advance.phase = .faulted f ∧ s.advance.output = s.output ∧ s.advance.report = s.report ∧
    step s.advance = .fault f ∧ ∀ n, State.advance^[n] s.advance = s.advance

/-- No step of the machine is refused (spec/30_encoding.md section 4: no bit pattern is an illegal instruction). -/
def Obligations.NoStepIsRefused : Prop := ∀ (s : State) (r : Refusal), step s ≠ .refused r

/-! ### Data movement -/

/-- spec/41_data_movement.md R90. -/
def Obligations.CmovMovesWhenNonzero : Prop :=
  ∀ a b c : Reg, (encode (.cmov a b c)).toNat = a * 64 + b * 8 + c ∧
    ∀ s : State, ∃ t, exec (.cmov a b c) s = .next t ∧
      (s.reg c ≠ 0 → t.reg a = s.reg b) ∧ (s.reg c = 0 → RegsSame s t) ∧ OnlyRegChanged a s t

/-- spec/41_data_movement.md R91: exactly `x[s]` becomes the 25-bit immediate, zero-extended. -/
def Obligations.OrthoLoadsTheImmediate : Prop :=
  ∀ (d : Reg) (imm : Word), imm.toNat < 2 ^ 25 →
    (encode (.ortho d imm)).toNat = 0xD0000000 + d * 2 ^ 25 + imm.toNat ∧
    ∀ s : State, ∃ t, exec (.ortho d imm) s = .next t ∧ t.reg d = imm ∧ OnlyRegChanged d s t

/-! ### Array access -/

/-- spec/42_array_access.md R95: the word at `(x[b], x[c])` is written to `x[a]`; a handle that is not live faults first,
then an index at or past the length, before `x[a]` is written. -/
def Obligations.IndexReadsTheWordOrFaults : Prop :=
  ∀ a b c : Reg, (encode (.index a b c)).toNat = 0x10000000 + a * 64 + b * 8 + c ∧
    ∀ s : State,
      (s.lenAt (s.reg b).toNat = none → exec (.index a b c) s = .fault (.handle (s.reg b))) ∧
      ∀ n, s.lenAt (s.reg b).toNat = some n →
        (n ≤ (s.reg c).toNat → exec (.index a b c) s = .fault (.index (s.reg b) (s.reg c))) ∧
        ((s.reg c).toNat < n → ∃ t, exec (.index a b c) s = .next t ∧
          s.wordAt (s.reg b).toNat (s.reg c).toNat = some (t.reg a) ∧ OnlyRegChanged a s t)

/-- spec/42_array_access.md R96: the word at `(x[a], x[b])` becomes `x[c]`, and no other word, no length, no handle and no
register changes; faults as INDEX. The store is in canonical form. -/
def Obligations.AmendWritesOneWordOrFaults : Prop :=
  ∀ a b c : Reg, (encode (.amend a b c)).toNat = 0x20000000 + a * 64 + b * 8 + c ∧
    ∀ s : State, s.mem.wf →
      (s.lenAt (s.reg a).toNat = none → exec (.amend a b c) s = .fault (.handle (s.reg a))) ∧
      ∀ n, s.lenAt (s.reg a).toNat = some n →
        (n ≤ (s.reg b).toNat → exec (.amend a b c) s = .fault (.index (s.reg a) (s.reg b))) ∧
        ((s.reg b).toNat < n → ∃ t, exec (.amend a b c) s = .next t ∧
          t.wordAt (s.reg a).toNat (s.reg b).toNat = some (s.reg c) ∧
          (∀ h i, (h, i) ≠ ((s.reg a).toNat, (s.reg b).toNat) → t.wordAt h i = s.wordAt h i) ∧
          (∀ h, t.lenAt h = s.lenAt h) ∧ t.arrayCount = s.arrayCount ∧ t.mem.free = s.mem.free ∧
          RegsSame s t ∧ AroundSame s t)

/-! ### Arithmetic and logic -/

/-- spec/43_arithmetic.md R100. -/
def Obligations.AddIsModuloTwoToThe32 : Prop :=
  ∀ a b c : Reg, (encode (.add a b c)).toNat = 0x30000000 + a * 64 + b * 8 + c ∧
    ∀ s : State, ∃ t, exec (.add a b c) s = .next t ∧
      (t.reg a).toNat = ((s.reg b).toNat + (s.reg c).toNat) % 2 ^ 32 ∧ OnlyRegChanged a s t

/-- spec/43_arithmetic.md R101. -/
def Obligations.MulIsModuloTwoToThe32 : Prop :=
  ∀ a b c : Reg, (encode (.mul a b c)).toNat = 0x40000000 + a * 64 + b * 8 + c ∧
    ∀ s : State, ∃ t, exec (.mul a b c) s = .next t ∧
      (t.reg a).toNat = ((s.reg b).toNat * (s.reg c).toNat) % 2 ^ 32 ∧ OnlyRegChanged a s t

/-- spec/43_arithmetic.md R102: the floor of the unsigned quotient; a zero divisor faults, `x[a]` not written. -/
def Obligations.DivIsUnsignedFloorOrFaults : Prop :=
  ∀ a b c : Reg, (encode (.div a b c)).toNat = 0x50000000 + a * 64 + b * 8 + c ∧
    ∀ s : State,
      (s.reg c = 0 → exec (.div a b c) s = .fault .div0) ∧
      (s.reg c ≠ 0 → ∃ t, exec (.div a b c) s = .next t ∧
        (t.reg a).toNat * (s.reg c).toNat ≤ (s.reg b).toNat ∧
        (s.reg b).toNat < ((t.reg a).toNat + 1) * (s.reg c).toNat ∧ OnlyRegChanged a s t)

/-- NAND (spec/43_arithmetic.md; the bitwise reading is the spec's decision D5, log entry 7): bit i of the result is 1
minus the product of bit i of the operands, for i from 0 to 31. -/
def Obligations.NandComplementsEveryBit : Prop :=
  ∀ a b c : Reg, (encode (.nand a b c)).toNat = 0x60000000 + a * 64 + b * 8 + c ∧
    ∀ s : State, ∃ t, exec (.nand a b c) s = .next t ∧
      (∀ i < 32, (t.reg a).getLsbD i = !((s.reg b).getLsbD i && (s.reg c).getLsbD i)) ∧ OnlyRegChanged a s t

/-! ### Array management -/

/-- ALLOC (spec/44_array_management.md; what can fail is the spec's decision D13, log entries 16, 17): `x[b]` becomes the
handle of an array of `x[c]` zero words: the most recently freed handle, else the array count; never 0; no other array
changes. `F_ALLOC` when the capacity would be exceeded, or no handle is left. -/
def Obligations.AllocReturnsAFreshZeroArray : Prop :=
  ∀ (b c : Reg) (s : State), s.mem.wf →
    (((∃ cap, s.params.storeCapacity = some cap ∧ cap < s.mem.liveWords + (s.reg c).toNat) ∨
        (s.mem.free = [] ∧ s.arrayCount = 2 ^ 32)) → exec (.alloc b c) s = .fault (.alloc (s.reg c))) ∧
    ((∀ cap, s.params.storeCapacity = some cap → s.mem.liveWords + (s.reg c).toNat ≤ cap) →
      (s.mem.free = [] → s.arrayCount < 2 ^ 32) →
      ∃ t, exec (.alloc b c) s = .next t ∧ t.reg b ≠ 0 ∧ s.lenAt (t.reg b).toNat = none ∧
        (∀ h rest, s.mem.free = h :: rest →
          (t.reg b).toNat = h ∧ t.mem.free = rest ∧ t.arrayCount = s.arrayCount) ∧
        (s.mem.free = [] →
          (t.reg b).toNat = s.arrayCount ∧ t.mem.free = [] ∧ t.arrayCount = s.arrayCount + 1) ∧
        t.lenAt (t.reg b).toNat = some (s.reg c).toNat ∧
        (∀ i < (s.reg c).toNat, t.wordAt (t.reg b).toNat i = some 0) ∧
        OtherArraysSame (t.reg b).toNat s t ∧ OtherRegsSame b s t ∧ AroundSame s t)

/-- ABANDON (spec/44_array_management.md; the fault of a number never minted is the spec's decision D21, log entry 18):
the array of `x[c]` is discarded and its handle is on top of the free-handle stack; no register changes. -/
def Obligations.AbandonFreesTheArrayOrFaults : Prop :=
  ∀ (c : Reg) (s : State),
    (s.reg c = 0 → exec (.abandon c) s = .fault .free0) ∧
    (s.reg c ≠ 0 → s.lenAt (s.reg c).toNat = none → exec (.abandon c) s = .fault (.freeDead (s.reg c))) ∧
    (s.reg c ≠ 0 → s.lenAt (s.reg c).toNat ≠ none → ∃ t, exec (.abandon c) s = .next t ∧
      t.lenAt (s.reg c).toNat = none ∧ t.mem.free = (s.reg c).toNat :: s.mem.free ∧ t.arrayCount = s.arrayCount ∧
      OtherArraysSame (s.reg c).toNat s t ∧ RegsSame s t ∧ AroundSame s t)

/-- An allocation after an ABANDON returns exactly that handle, with exactly n zero words whatever was stored there
(spec/44_array_management.md, spec/90_conflicts.md C6); the capacity is unbounded. -/
def Obligations.AllocAfterAbandonReusesTheHandle : Prop :=
  ∀ (b c d : Reg) (s t : State), exec (.abandon c) s = .next t → s.params.storeCapacity = none →
    ∃ u, exec (.alloc b d) t = .next u ∧ u.reg b = s.reg c ∧ u.lenAt (s.reg c).toNat = some (s.reg d).toNat ∧
      (∀ i < (s.reg d).toNat, u.wordAt (s.reg c).toNat i = some 0) ∧
      u.mem.free = s.mem.free ∧ u.arrayCount = s.arrayCount

/-- After an ABANDON every INDEX, AMEND, LOADPROG or ABANDON that uses the handle faults, through any register that
holds it (spec/44_array_management.md, spec/20_memory.md R38). That INDEX and AMEND name the fault `F_HANDLE` is the
spec's reading C3 (spec/90_conflicts.md), and the fault names are its decision D6 (log entry 18, DESIGN CHOICE); that
LOADPROG raises `F_HANDLE`, at the LOADPROG itself, is its decision D10 (log entry 22, DESIGN CHOICE). -/
def Obligations.UseAfterAbandonFaults : Prop :=
  ∀ (c : Reg) (s t : State), exec (.abandon c) s = .next t →
    ∀ r a d : Reg, t.reg r = s.reg c →
      exec (.index a r d) t = .fault (.handle (s.reg c)) ∧ exec (.amend r a d) t = .fault (.handle (s.reg c)) ∧
      exec (.loadprog r d) t = .fault (.handle (s.reg c)) ∧ exec (.abandon r) t = .fault (.freeDead (s.reg c))

/-! ### Input and output -/

/-- OUT (spec/45_io.md): the low 8 bits of `x[c]` are appended to the output stream; nothing inside the block changes.
That it completes in every state rests on the premise that the output port always accepts the byte at once, the spec's
decision D19 (log entry 19, DESIGN CHOICE, unsafe where an output can fail or stall). -/
def Obligations.OutEmitsTheLowByte : Prop :=
  ∀ c : Reg, (encode (.output c)).toNat = 0xA0000000 + c ∧
    ∀ s : State, ∃ t v, exec (.output c) s = .next t ∧ t.output = s.output ++ [v] ∧
      v.toNat = (s.reg c).toNat % 256 ∧ RegsSame s t ∧ StoreSame s t ∧ t.pc = s.pc ∧ ControlSame s t ∧
      t.report = s.report ∧ t.queue = s.queue ∧ t.files = s.files ∧ ModelSame s t

/-- IN (spec/45_io.md R116, in the step of spec/40_execution_cycle.md R80, split as R82 splits it): an answer that comes is
written to `x[c]` and the IN completes, at once or from the wait, where it is then counted; while no answer comes the
phase is WaitingInput(c) and nothing else changes; no other instruction suspends. `s.nextEvent` is the event the
environment gives at this poll (log entry 10). The model's choices: the IN's own step polls once and each later step is
one poll (log entry 11); a waiting step ends Halted when `halted` is set, as only a loaded Machine State can have it
(spec/50_interfaces.md R139, decision D17; log entry 23). -/
def Obligations.InputWaitsForItsAnswer : Prop :=
  (∀ (i : Instr) (s t : State) (c : Reg), s.phase = .running → exec i s = .next t → t.phase = .waitingInput c →
    i = .input c) ∧
  ∀ c : Reg, (encode (.input c)).toNat = 0xB0000000 + c ∧ ∀ s : State,
    (∀ a, s.nextEvent.1 = .answer a →
      (∃ t, exec (.input c) s = .next t ∧ AnswerWritten c a s t ∧ t.phase = .running ∧ t.count = s.count) ∧
      (s.phase = .waitingInput c → ∃ t, step s = .next t ∧ AnswerWritten c a s t ∧ t.count = s.count + 1 ∧
        t.phase = if s.halted then .halted else .running)) ∧
    (s.nextEvent.1 = .nothing →
      (∃ t, exec (.input c) s = .next t ∧ t.phase = .waitingInput c ∧ t.snapshot = s.snapshot ∧ PortsSame s t ∧
        t.params = s.params) ∧
      (s.phase = .waitingInput c → ∃ t, step s = .next t ∧ t.phase = .waitingInput c ∧ t.snapshot = s.snapshot ∧
        PortsSame s t ∧ t.params = s.params))

/-- spec/70_reset_and_hazards.md R176: while the input stream gives neither a byte nor an end of stream, its events scripted
or drawn from the oracle, the machine stays WaitingInput for as many steps as that lasts, whatever commands arrive or are
applied meanwhile: not halted, not faulted, not finished; and where no command does either, nothing changes. The
model's choices: each step of a wait is one poll (log entry 11), and a poll consumes one event (log entry 10), so a
script of at least that many events has just those consumed. -/
def Obligations.WaitLastsWhileNoAnswerComes : Prop :=
  ∀ (n : Nat) (s : State) (c : Reg), s.phase = .waitingInput c →
    (∀ k < n, ∀ u : State, core.run k s = .next u → ∀ a, u.nextEvent.1 ≠ .answer a) →
    ∃ t, core.run n s = .next t ∧ t.phase = .waitingInput c ∧ t.output = s.output ∧ t.report = s.report ∧
      (n ≤ s.script.length → t.script = s.script.drop n) ∧
      ((∀ k < n, ∀ u : State, core.run k s = .next u → u.nextEvent.1 = .nothing) →
        t.snapshot = s.snapshot ∧ PortsSame s t)

/-- Under the finite input model (decision D14, log entries 10, 11) every wait ends, whatever the environment does meanwhile:
within one step more than the script has events the IN has completed. -/
def Obligations.FiniteInputEndsEveryWait : Prop :=
  ∀ (s : State) (c : Reg), s.phase = .waitingInput c → s.params.inputModel = .finite →
    ∃ n t, n ≤ s.script.length + 1 ∧ core.run n s = .next t ∧ ∀ d, t.phase ≠ .waitingInput d

/-! ### Control -/

/-- HALT (spec/46_control.md; that the report counts the HALT is C8, decision D15, log entry 20): `halted` becomes true,
the step is counted, the finger is one past the HALT, and the status port shows the count after it. -/
def Obligations.HaltStopsAndReports : Prop :=
  (∀ s : State, ∃ t, exec .halt s = .next t ∧ t.halted = true ∧ t.report = some (s.count + 1) ∧ t.count = s.count ∧
    t.phase = s.phase ∧ t.pc = s.pc ∧ RegsSame s t ∧ StoreSame s t ∧ t.output = s.output ∧ t.queue = s.queue ∧
    t.files = s.files ∧ ModelSame s t) ∧
  (∀ (s : State) (w : Word), s.phase = .running → s.wordAt 0 s.pc = some w → w.toNat / 2 ^ 28 = 7 →
    ∃ t, step s = .next t ∧ t.halted = true ∧ t.phase = .halted ∧ t.pc = s.pc + 1 ∧ t.count = s.count + 1 ∧
      t.report = some t.count ∧ RegsSame s t ∧ StoreSame s t ∧ t.output = s.output)

/-- LOADPROG (spec/46_control.md): the finger becomes `x[c]`; when `x[b]` is not 0, array 0 becomes an exact copy of that
array, which stays as it is; a handle that is not live faults before anything changes. That the target is not checked
here and that the dead handle faults at the LOADPROG are the spec's decisions D9 and D10 (log entry 22, DESIGN CHOICE). -/
def Obligations.LoadprogCopiesAndJumps : Prop :=
  ∀ b c : Reg, (encode (.loadprog b c)).toNat = 0xC0000000 + b * 8 + c ∧
    ∀ s : State,
      (s.reg b = 0 → ∃ t, exec (.loadprog b c) s = .next t ∧ t.pc = (s.reg c).toNat ∧ StoreSame s t ∧
        RegsSame s t ∧ ControlSame s t ∧ PortsSame s t ∧ ModelSame s t) ∧
      (s.reg b ≠ 0 → s.lenAt (s.reg b).toNat = none → exec (.loadprog b c) s = .fault (.handle (s.reg b))) ∧
      (s.reg b ≠ 0 → s.lenAt (s.reg b).toNat ≠ none → ∃ t, exec (.loadprog b c) s = .next t ∧
        t.pc = (s.reg c).toNat ∧ t.lenAt 0 = s.lenAt (s.reg b).toNat ∧
        (∀ i, t.wordAt 0 i = s.wordAt (s.reg b).toNat i) ∧ OtherArraysSame 0 s t ∧
        t.arrayCount = s.arrayCount ∧ t.mem.free = s.mem.free ∧
        RegsSame s t ∧ ControlSame s t ∧ PortsSame s t ∧ ModelSame s t)

/-- The copy LOADPROG makes shares nothing with its source (spec/20_memory.md, decision D10): after a later write
to the source array 0 still holds the words copied, and after a later write to array 0 the source still holds them. -/
def Obligations.LoadedProgramSharesNothing : Prop :=
  ∀ (b c : Reg) (s t : State), s.reg b ≠ 0 → exec (.loadprog b c) s = .next t →
    ∀ (i v : Word) (m : Memory),
      (memWrite t.mem (s.reg b) i v = .ok m →
        ∀ j, ({ t with mem := m } : State).wordAt 0 j = s.wordAt (s.reg b).toNat j) ∧
      (memWrite t.mem 0 i v = .ok m →
        ∀ j, ({ t with mem := m } : State).wordAt (s.reg b).toNat j = s.wordAt (s.reg b).toNat j)

/-! ### The whole machine -/

/-- The invariant is kept by every step (spec/10_state.md R13, R18, R22; log entry 14 for a Load): the store in canonical
form with handle 0 live and the free-handle stack exactly the handles that are not live, the finger below 2^32, phase
and halted flag in agreement. -/
def Obligations.StepKeepsTheInvariant : Prop := ∀ s t : State, s.Inv → step s = .next t → t.Inv

/-- Handle states (spec/20_memory.md R32): every number is in exactly one of the three; handle 0 is live, never free, and
cannot be freed. That every access to a free handle faults with the handle is the spec's reading C3
(spec/90_conflicts.md; log entry 18), and of the copy of LOADPROG its decision D10 (log entry 22). -/
def Obligations.HandlesAreLiveFreeOrUnminted : Prop :=
  ∀ s : State, s.mem.wf →
    (∀ h, s.mem.live h = true ↔ h < s.arrayCount ∧ h ∉ s.mem.free) ∧
    (∀ h, s.mem.live h = false ↔ (h < s.arrayCount ∧ h ∈ s.mem.free) ∨ s.arrayCount ≤ h) ∧
    (∀ h, h ∈ s.mem.free → h < s.arrayCount) ∧
    s.mem.live 0 = true ∧ 0 ∉ s.mem.free ∧ memFree s.mem 0 = .error .free0 ∧
    (∀ h i v : Word, h.toNat ∈ s.mem.free →
      memRead s.mem h i = .error (.handle h) ∧ memWrite s.mem h i v = .error (.handle h) ∧
      memCopyToZero s.mem h = .error (.handle h))

/-- A store to array 0 is seen by the very next fetch (derived in spec/20_memory.md from step 1 of the source): after an
AMEND with handle 0 the word is there, and if the finger is at it the next step executes it. -/
def Obligations.StoredWordIsFetchedNext : Prop :=
  ∀ (s t : State) (w : Word) (a b c : Reg), s.mem.wf → s.phase = .running → s.halted = false →
    s.wordAt 0 s.pc = some w → decode w = .amend a b c → s.reg a = 0 → step s = .next t →
    t.wordAt 0 (s.reg b).toNat = some (s.reg c) ∧ t.phase = .running ∧
    (t.pc = (s.reg b).toNat → step t = retireOutcome (exec (decode (s.reg c)) { t with pc := t.pc + 1 }))

/-- Which registers an instruction changes, and on which registers its result depends (the table of spec/10_state.md
section 1, derived there): registers it does not write stay, and registers it does not read do not matter to its faults,
to what it writes, or to anything else it changes. IN is apart, since a Save in its wait records every register. -/
def Obligations.InstructionsReadAndWriteAsListed : Prop :=
  ∀ (i : Instr) (s : State), (∀ c, i ≠ .input c) →
    (∀ t, exec i s = .next t → ∀ r, writtenReg i s ≠ some r → t.reg r = s.reg r) ∧
    ∀ regs : Vector Word 8, (∀ r ∈ readRegs i s, ({ s with regs := regs } : State).reg r = s.reg r) →
      (∀ f, exec i s = .fault f ↔ exec i { s with regs := regs } = .fault f) ∧
      ∀ t u, exec i s = .next t → exec i { s with regs := regs } = .next u →
        { u with regs := t.regs } = t ∧ ∀ r, writtenReg i s = some r → u.reg r = t.reg r

/-- Only HALT ends a run normally (spec/10_state.md section 3, spec/46_control.md): a running step ends in phase Halted
exactly when the fetched word is a HALT, and apart from a Load in an IN's poll only HALT sets the flag. -/
def Obligations.OnlyHaltEndsARun : Prop :=
  ∀ (s t : State) (w : Word), s.Inv → s.phase = .running → s.wordAt 0 s.pc = some w → step s = .next t →
    (t.phase = .halted ↔ decode w = .halt) ∧ (¬ s.LoadsNow → (t.halted = true ↔ decode w = .halt))

/-- How the finger moves (spec/46_control.md section on control transfer, derived there): LOADPROG sets it; else, unless
a Load takes effect in an IN's poll, a running step moves it to the next word and no other step moves it. -/
def Obligations.OnlyLoadprogJumps : Prop :=
  ∀ s t : State, step s = .next t →
    (∀ w, s.phase = .running → s.wordAt 0 s.pc = some w →
      (∀ b c, decode w = .loadprog b c → t.pc = (s.reg c).toNat) ∧
      ((∀ b c, decode w ≠ .loadprog b c) → ¬ s.LoadsNow → t.pc = s.pc + 1)) ∧
    (s.phase ≠ .running → ¬ s.LoadsNow → t.pc = s.pc)

/-- Every completed step is counted once, whatever the operator, and only an IN leaves a step uncompleted
(spec/40_execution_cycle.md; the fault side is decision D8). -/
def Obligations.CompletedStepsAreCounted : Prop :=
  ∀ (s t : State) (w : Word), s.phase = .running → s.wordAt 0 s.pc = some w → step s = .next t →
    ((∀ c, t.phase ≠ .waitingInput c) → t.count = s.count + 1) ∧
    (∀ c, t.phase = .waitingInput c → decode w = .input c ∧ (¬ s.LoadsNow → t.count = s.count))

/-- Only OUT writes output and only HALT reports (spec/50_interfaces.md; log entries 19, 20): a step leaves the output
trace as it was or appends the low byte of OUT's register, and leaves the report as it was or is a HALT's. -/
def Obligations.OnlyOutWritesAndOnlyHaltReports : Prop :=
  ∀ s t : State, step s = .next t →
    (t.output = s.output ∨ ∃ w c v, s.phase = .running ∧ s.wordAt 0 s.pc = some w ∧ decode w = .output c ∧
      v.toNat = (s.reg c).toNat % 256 ∧ t.output = s.output ++ [v]) ∧
    (t.report = s.report ∨ ∃ w, s.phase = .running ∧ s.wordAt 0 s.pc = some w ∧ decode w = .halt ∧
      t.report = some t.count)

/-- What changes the Array Store (the table of spec/20_memory.md section 1): unless a Load takes effect in an IN's poll, a
step that is not a running step of AMEND, ALLOC, ABANDON or LOADPROG leaves every word, every length and every handle as
it was, an IN's steps included; and no step lowers the array count or raises it by more than one. -/
def Obligations.OnlyFiveInstructionsTouchTheStore : Prop :=
  ∀ s t : State, step s = .next t → ¬ s.LoadsNow →
    ((∀ w, s.phase = .running → s.wordAt 0 s.pc = some w →
        (∀ a b c, decode w ≠ .amend a b c) ∧ (∀ b c, decode w ≠ .alloc b c) ∧ (∀ c, decode w ≠ .abandon c) ∧
        (∀ b c, decode w ≠ .loadprog b c)) → StoreSame s t) ∧
    s.arrayCount ≤ t.arrayCount ∧ t.arrayCount ≤ s.arrayCount + 1

/-- Which instruction raises which fault, and when (the table of spec/60_exceptions.md section 1): execute raises a fault
only so, and never `F_FETCH`. The names and the order are the spec's decisions D6, D7, the `F_HANDLE` of a free handle
its reading C3, the `F_FREE_DEAD` of a number never minted D21 (log entry 18); the `F_HANDLE` of LOADPROG is D10, and a
finger out of range being left to the fetch D9 (log entry 22); the causes of `F_ALLOC` are D13 (log entries 16, 17). -/
def Obligations.FaultsHaveTheirListedCauses : Prop :=
  ∀ (i : Instr) (s : State) (f : Fault), exec i s = .fault f →
    match f with
    | .fetch _ => False
    | .handle h => s.lenAt h.toNat = none ∧
        ((∃ a b c, i = .index a b c ∧ s.reg b = h) ∨ (∃ a b c, i = .amend a b c ∧ s.reg a = h) ∨
         (∃ b c, i = .loadprog b c ∧ s.reg b = h ∧ h ≠ 0))
    | .index h k => (∃ n, s.lenAt h.toNat = some n ∧ n ≤ k.toNat) ∧
        ((∃ a b c, i = .index a b c ∧ s.reg b = h ∧ s.reg c = k) ∨
         (∃ a b c, i = .amend a b c ∧ s.reg a = h ∧ s.reg b = k))
    | .div0 => ∃ a b c, i = .div a b c ∧ s.reg c = 0
    | .free0 => ∃ c, i = .abandon c ∧ s.reg c = 0
    | .freeDead h => ∃ c, i = .abandon c ∧ s.reg c = h ∧ h ≠ 0 ∧ s.lenAt h.toNat = none
    | .alloc n => (exceedsCapacity s.params.storeCapacity s.mem n.toNat = true ∨
          (s.mem.free = [] ∧ 2 ^ 32 ≤ s.mem.count)) ∧
        ∃ b c, i = .alloc b c ∧ s.reg c = n

/-- The parameters are fixed for the machine (log entry 24): no step changes them. -/
def Obligations.ParametersNeverChange : Prop := ∀ s t : State, step s = .next t → t.params = s.params

/-! ### Host commands

An IN's own step polls as a waiting step does (log entry 11), so the effect of a poll is stated of `exec (.input c)` in
any state, and of `step` where the machine waits already: both answer the same next state. The event is the one the
environment gives at this poll, scripted or drawn, and the poll consumes it (log entry 10). -/

/-- spec/50_interfaces.md R136 (decision D16; log entry 12): a command that arrives at a poll joins the queue at its end,
and nothing else changes; without a command port it reaches no queue. -/
def Obligations.ArrivingCommandsJoinTheQueue : Prop :=
  ∀ (s : State) (c : Reg) (cmd : Command), s.nextEvent.1 = .arrive cmd →
    ∃ t, exec (.input c) s = .next t ∧ (s.phase = .waitingInput c → step s = .next t) ∧
      (s.params.hostCommands = true → t.queue = s.queue ++ [cmd]) ∧
      (s.params.hostCommands = false → t.queue = s.queue) ∧
      t.snapshot = s.snapshot ∧ t.phase = .waitingInput c ∧ t.files = s.files ∧ t.output = s.output ∧
      t.report = s.report ∧ t.script = s.nextEvent.2.script

/-- Failed commands and the round trip (spec/50_interfaces.md R140): a command whose file operation fails, and a Load of
an unreadable or malformed blob, have no effect on the block; a Save followed at once by a Load of the same path
reproduces the Machine State. That the files stay is log entry 30, that the command leaves the queue is
log entry 32, which blobs are malformed is log entry 14. -/
def Obligations.FailedCommandsAndRoundTrip : Prop :=
  ∀ (s : State) (c : Reg) (q : List Command), s.params.hostCommands = true →
    (∀ cmd, s.queue = cmd :: q → s.nextEvent.1 = .serve false →
      ∃ t, exec (.input c) s = .next t ∧ (s.phase = .waitingInput c → step s = .next t) ∧
        t.snapshot = s.snapshot ∧ t.phase = .waitingInput c ∧ t.queue = q ∧
        t.files = s.files ∧ t.output = s.output ∧ t.report = s.report ∧ t.script = s.nextEvent.2.script) ∧
    (∀ p, s.queue = .load p :: q → s.nextEvent.1 = .serve true →
      (s.nextEvent.2.blobAt p = .unreadable ∨ ∃ m, s.nextEvent.2.blobAt p = .snapshot m ∧ ¬ m.wf) →
      ∃ t, exec (.input c) s = .next t ∧ (s.phase = .waitingInput c → step s = .next t) ∧
        t.snapshot = s.snapshot ∧ t.phase = .waitingInput c ∧ t.queue = q ∧
        t.files = s.files ∧ t.output = s.output ∧ t.report = s.report ∧ t.script = s.nextEvent.2.script) ∧
    (∀ p, s.queue = .save p :: .load p :: q → s.nextEvent.1 = .serve true → s.Inv →
      ∃ t, exec (.input c) s = .next t ∧ (s.phase = .waitingInput c → step s = .next t) ∧
        t.snapshot = s.snapshot ∧ t.phase = .waitingInput c ∧ t.script = s.nextEvent.2.script ∧
        (t.nextEvent.1 = .serve true →
          ∃ u, step t = .next u ∧ u.snapshot = s.snapshot ∧ u.phase = .waitingInput c ∧ u.queue = q))

/-- spec/50_interfaces.md R138: a Load of a blob that a Save made of a state `o` replaces the entire Machine State by
`o`'s, all at once; the phase is WaitingInput with the same register. The model's choices: the IN's own step applies the
Load at its one poll (log entry 11), which consumes one event (log entry 10). That the command served is the head of the
queue, taken from it, is R136 with decision D16. -/
def Obligations.LoadReplacesTheMachineState : Prop :=
  ∀ (s o : State) (c : Reg) (p : Path) (q : List Command),
    s.params.hostCommands = true → s.queue = .load p :: q → s.nextEvent.1 = .serve true → o.Inv →
    s.nextEvent.2.blobAt p = .snapshot o.snapshot →
    ∃ t, exec (.input c) s = .next t ∧ (s.phase = .waitingInput c → step s = .next t) ∧
      (∀ r, t.reg r = o.reg r) ∧ t.mem = o.mem ∧ t.pc = o.pc ∧ t.halted = o.halted ∧ t.count = o.count ∧
      t.phase = .waitingInput c ∧ t.queue = q ∧ t.files = s.files ∧ t.output = s.output ∧
      t.script = s.nextEvent.2.script

/-- What a Save stores (derived in spec/50_interfaces.md): the complete Machine State as it is in the wait, before the
pending byte is applied; nothing in the block changes; a later Load of the path finds it. That a Save changes no other
path, paths compared as strings, is log entry 31. -/
def Obligations.SaveStoresTheMachineState : Prop :=
  ∀ (s : State) (c : Reg) (p : Path) (q : List Command),
    s.params.hostCommands = true → s.queue = .save p :: q → s.nextEvent.1 = .serve true →
    ∃ t, exec (.input c) s = .next t ∧ (s.phase = .waitingInput c → step s = .next t) ∧
      t.blobAt p = .snapshot s.snapshot ∧ t.snapshot = s.snapshot ∧ t.phase = .waitingInput c ∧ t.queue = q ∧
      (∀ p', p' ≠ p → fileLookup t.files p' = fileLookup s.files p') ∧ t.output = s.output ∧
      t.script = s.nextEvent.2.script

/-- How a wait ends after a Load (the spec's decision D17, log entry 23): the answer goes to register c of the loaded
state, the loaded counter is incremented, execution goes on at the loaded finger, and a loaded `halted` halts. -/
def Obligations.InputCompletesInTheLoadedState : Prop :=
  ∀ (s : State) (c : Reg) (p : Path) (q : List Command) (m : Snapshot),
    s.params.hostCommands = true → s.queue = .load p :: q → s.nextEvent.1 = .serve true →
    s.nextEvent.2.blobAt p = .snapshot m → m.wf →
    ∃ t, exec (.input c) s = .next t ∧ (s.phase = .waitingInput c → step s = .next t) ∧
      t.script = s.nextEvent.2.script ∧
      ∀ v, t.nextEvent.1 = .answer (.byte v) →
        ∃ u, step t = .next u ∧ (u.reg c).toNat = v.toNat ∧ (∀ r, r ≠ c → u.reg r = m.regs[r]) ∧ u.mem = m.mem ∧
          u.pc = m.pc ∧ u.halted = m.halted ∧ u.count = m.count + 1 ∧
          u.phase = if m.halted then .halted else .running

/-- Commands are applied only while an IN waits, one a poll, in queue order (spec/50_interfaces.md; decision D16, log
entry 12): no other step touches the queue or the files, and a step takes at most the head of the queue or finds one
command more at its end. -/
def Obligations.CommandsAreServedOnlyDuringInput : Prop :=
  ∀ s t : State, step s = .next t →
    (s.phase = .running → ∀ w, s.wordAt 0 s.pc = some w → (∀ c, decode w ≠ .input c) →
      t.queue = s.queue ∧ t.files = s.files) ∧
    (t.queue = s.queue ∨ (∃ cmd, s.queue = cmd :: t.queue) ∨ (∃ cmd, t.queue = s.queue ++ [cmd])) ∧
    (s.params.hostCommands = false → t.queue = s.queue ∧ t.files = s.files)

/-- Any number of queued commands may be applied before the answer ends the wait (spec/50_interfaces.md; decision D16;
log entries 10, 11, and 32 for a command that fails), from the IN's own step or from a wait begun: the poll that serves
applies the next one in order, whatever becomes of it, and the rest stay queued. -/
def Obligations.AnyPrefixOfTheQueueIsServed : Prop :=
  ∀ (oks : List Bool) (s : State) (c : Reg) (a : Answer) (rest : List EnvEvent),
    s.Polls c → s.params.hostCommands = true → oks.length ≤ s.queue.length →
    s.script = oks.map .serve ++ .answer a :: rest →
    ∃ t, core.run (oks.length + 1) s = .next t ∧ t.queue = s.queue.drop oks.length ∧ t.script = rest ∧
      ∀ d, t.phase ≠ .waitingInput d

/-- Without a command port an IN's wait changes nothing but the one register (spec/50_interfaces.md, decision D16). -/
def Obligations.WithoutCommandPortOnlyTheRegisterChanges : Prop :=
  ∀ (s t : State) (c : Reg), s.phase = .waitingInput c → s.params.hostCommands = false → step s = .next t →
    OtherRegsSame c s t ∧ StoreSame s t ∧ t.pc = s.pc ∧ t.halted = s.halted ∧ PortsSame s t ∧
    (t.phase = .waitingInput c → RegsSame s t ∧ t.count = s.count)
end

