-- ==== Sys2Proof/Laws/Decode.lean ====
section
/-! SUPPORT. The canonical words as numbers (spec/30_encoding.md R71), and the fields decode reads as numbers (R61,
R62). -/

namespace Sys2Proof

theorem toNat_standardWord {op : Nat} (hop : op < 16) (a b c : Reg) :
    (standardWord op a b c).toNat = op * 2 ^ 28 + a * 64 + b * 8 + c := by
  unfold standardWord
  rw [BitVec.toNat_ofNat, Nat.mod_eq_of_lt (by omega)]

theorem toNat_specialWord (s : Reg) {imm : Nat} (h : imm < 2 ^ 25) :
    (specialWord s imm).toNat = 13 * 2 ^ 28 + s * 2 ^ 25 + imm := by
  unfold specialWord
  rw [BitVec.toNat_ofNat, Nat.mod_eq_of_lt (by omega)]

theorem opField_eq (w : Word) : opField w = w.toNat / 2 ^ 28 := by
  have := w.isLt
  unfold opField bits
  exact Nat.mod_eq_of_lt (by omega)

theorem opField_lt (w : Word) : opField w < 16 := by
  have := w.isLt
  rw [opField_eq]; omega

theorem fieldA_val (w : Word) : (fieldA w : Nat) = w.toNat / 64 % 8 := rfl

theorem fieldB_val (w : Word) : (fieldB w : Nat) = w.toNat / 8 % 8 := rfl

theorem fieldC_val (w : Word) : (fieldC w : Nat) = w.toNat % 8 := by
  simp [fieldC, regField]

theorem fieldS_val (w : Word) : (fieldS w : Nat) = w.toNat / 2 ^ 25 % 8 := rfl

theorem fieldImm_toNat (w : Word) : (fieldImm w).toNat = w.toNat % 2 ^ 25 := by
  unfold fieldImm bits
  rw [BitVec.toNat_ofNat]; omega

/-- The word's own bytes, read back big-endian, are the word (R39). -/
theorem imageWord_wordBytes (w : Word) :
    imageWord (BitVec.ofNat 8 (bits w 31 24)) (BitVec.ofNat 8 (bits w 23 16)) (BitVec.ofNat 8 (bits w 15 8))
      (BitVec.ofNat 8 (bits w 7 0)) = w := by
  have := w.isLt
  apply BitVec.eq_of_toNat_eq
  simp only [imageWord, bits, BitVec.toNat_ofNat]
  omega

/-- What `decodeTableWord` answers: the decoder's instruction for the word the table's bits name. -/
theorem decodeTableWord_eq {nbits : Nat} (h : nbits ≤ 32) (w : Nat) :
    decodeTableWord nbits w = some (decode (tableWord nbits w)) := by
  simp [decodeTableWord, h, wordBytes, decodeBytes, imageWord_wordBytes]

end Sys2Proof
end

