-- ==== Sys2Proof/Laws/State.lean ====
section
/-! SUPPORT. One lemma per field of State per update, true by rfl, so that no later proof unfolds a record update; and
what a register reads as after each update. -/

namespace Sys2Proof.Machine

/-! ### Fields after `State.setReg` -/

@[simp] theorem State.setReg_regs (s : State) (r : Reg) (v : Word) : (s.setReg r v).regs = s.regs.set r v := rfl
@[simp] theorem State.setReg_pc (s : State) (r : Reg) (v : Word) : (s.setReg r v).pc = s.pc := rfl
@[simp] theorem State.setReg_halted (s : State) (r : Reg) (v : Word) : (s.setReg r v).halted = s.halted := rfl
@[simp] theorem State.setReg_count (s : State) (r : Reg) (v : Word) : (s.setReg r v).count = s.count := rfl
@[simp] theorem State.setReg_mem (s : State) (r : Reg) (v : Word) : (s.setReg r v).mem = s.mem := rfl
@[simp] theorem State.setReg_phase (s : State) (r : Reg) (v : Word) : (s.setReg r v).phase = s.phase := rfl
@[simp] theorem State.setReg_output (s : State) (r : Reg) (v : Word) : (s.setReg r v).output = s.output := rfl
@[simp] theorem State.setReg_report (s : State) (r : Reg) (v : Word) : (s.setReg r v).report = s.report := rfl
@[simp] theorem State.setReg_queue (s : State) (r : Reg) (v : Word) : (s.setReg r v).queue = s.queue := rfl
@[simp] theorem State.setReg_files (s : State) (r : Reg) (v : Word) : (s.setReg r v).files = s.files := rfl
@[simp] theorem State.setReg_params (s : State) (r : Reg) (v : Word) : (s.setReg r v).params = s.params := rfl
@[simp] theorem State.setReg_script (s : State) (r : Reg) (v : Word) : (s.setReg r v).script = s.script := rfl
@[simp] theorem State.setReg_tick (s : State) (r : Reg) (v : Word) : (s.setReg r v).tick = s.tick := rfl

/-! ### Fields after `State.afterFetch` -/

@[simp] theorem State.afterFetch_regs (s : State) : (s.afterFetch).regs = s.regs := rfl
@[simp] theorem State.afterFetch_pc (s : State) : (s.afterFetch).pc = s.pc + 1 := rfl
@[simp] theorem State.afterFetch_halted (s : State) : (s.afterFetch).halted = s.halted := rfl
@[simp] theorem State.afterFetch_count (s : State) : (s.afterFetch).count = s.count := rfl
@[simp] theorem State.afterFetch_mem (s : State) : (s.afterFetch).mem = s.mem := rfl
@[simp] theorem State.afterFetch_phase (s : State) : (s.afterFetch).phase = s.phase := rfl
@[simp] theorem State.afterFetch_output (s : State) : (s.afterFetch).output = s.output := rfl
@[simp] theorem State.afterFetch_report (s : State) : (s.afterFetch).report = s.report := rfl
@[simp] theorem State.afterFetch_queue (s : State) : (s.afterFetch).queue = s.queue := rfl
@[simp] theorem State.afterFetch_files (s : State) : (s.afterFetch).files = s.files := rfl
@[simp] theorem State.afterFetch_params (s : State) : (s.afterFetch).params = s.params := rfl
@[simp] theorem State.afterFetch_script (s : State) : (s.afterFetch).script = s.script := rfl
@[simp] theorem State.afterFetch_tick (s : State) : (s.afterFetch).tick = s.tick := rfl

/-! ### Fields after `State.emit` -/

@[simp] theorem State.emit_regs (s : State) (v : Byte) : (s.emit v).regs = s.regs := rfl
@[simp] theorem State.emit_pc (s : State) (v : Byte) : (s.emit v).pc = s.pc := rfl
@[simp] theorem State.emit_halted (s : State) (v : Byte) : (s.emit v).halted = s.halted := rfl
@[simp] theorem State.emit_count (s : State) (v : Byte) : (s.emit v).count = s.count := rfl
@[simp] theorem State.emit_mem (s : State) (v : Byte) : (s.emit v).mem = s.mem := rfl
@[simp] theorem State.emit_phase (s : State) (v : Byte) : (s.emit v).phase = s.phase := rfl
@[simp] theorem State.emit_output (s : State) (v : Byte) : (s.emit v).output = s.output ++ [v] := rfl
@[simp] theorem State.emit_report (s : State) (v : Byte) : (s.emit v).report = s.report := rfl
@[simp] theorem State.emit_queue (s : State) (v : Byte) : (s.emit v).queue = s.queue := rfl
@[simp] theorem State.emit_files (s : State) (v : Byte) : (s.emit v).files = s.files := rfl
@[simp] theorem State.emit_params (s : State) (v : Byte) : (s.emit v).params = s.params := rfl
@[simp] theorem State.emit_script (s : State) (v : Byte) : (s.emit v).script = s.script := rfl
@[simp] theorem State.emit_tick (s : State) (v : Byte) : (s.emit v).tick = s.tick := rfl

/-! ### Fields after `State.restore` -/

@[simp] theorem State.restore_regs (s : State) (m : Snapshot) : (s.restore m).regs = m.regs := rfl
@[simp] theorem State.restore_pc (s : State) (m : Snapshot) : (s.restore m).pc = m.pc := rfl
@[simp] theorem State.restore_halted (s : State) (m : Snapshot) : (s.restore m).halted = m.halted := rfl
@[simp] theorem State.restore_count (s : State) (m : Snapshot) : (s.restore m).count = m.count := rfl
@[simp] theorem State.restore_mem (s : State) (m : Snapshot) : (s.restore m).mem = m.mem := rfl
@[simp] theorem State.restore_phase (s : State) (m : Snapshot) : (s.restore m).phase = s.phase := rfl
@[simp] theorem State.restore_output (s : State) (m : Snapshot) : (s.restore m).output = s.output := rfl
@[simp] theorem State.restore_report (s : State) (m : Snapshot) : (s.restore m).report = s.report := rfl
@[simp] theorem State.restore_queue (s : State) (m : Snapshot) : (s.restore m).queue = s.queue := rfl
@[simp] theorem State.restore_files (s : State) (m : Snapshot) : (s.restore m).files = s.files := rfl
@[simp] theorem State.restore_params (s : State) (m : Snapshot) : (s.restore m).params = s.params := rfl
@[simp] theorem State.restore_script (s : State) (m : Snapshot) : (s.restore m).script = s.script := rfl
@[simp] theorem State.restore_tick (s : State) (m : Snapshot) : (s.restore m).tick = s.tick := rfl

/-! ### Fields after `State.save` -/

@[simp] theorem State.save_regs (s : State) (p : Path) : (s.save p).regs = s.regs := rfl
@[simp] theorem State.save_pc (s : State) (p : Path) : (s.save p).pc = s.pc := rfl
@[simp] theorem State.save_halted (s : State) (p : Path) : (s.save p).halted = s.halted := rfl
@[simp] theorem State.save_count (s : State) (p : Path) : (s.save p).count = s.count := rfl
@[simp] theorem State.save_mem (s : State) (p : Path) : (s.save p).mem = s.mem := rfl
@[simp] theorem State.save_phase (s : State) (p : Path) : (s.save p).phase = s.phase := rfl
@[simp] theorem State.save_output (s : State) (p : Path) : (s.save p).output = s.output := rfl
@[simp] theorem State.save_report (s : State) (p : Path) : (s.save p).report = s.report := rfl
@[simp] theorem State.save_queue (s : State) (p : Path) : (s.save p).queue = s.queue := rfl
@[simp] theorem State.save_files (s : State) (p : Path) : (s.save p).files = fileStore s.files p (.snapshot s.snapshot) := rfl
@[simp] theorem State.save_params (s : State) (p : Path) : (s.save p).params = s.params := rfl
@[simp] theorem State.save_script (s : State) (p : Path) : (s.save p).script = s.script := rfl
@[simp] theorem State.save_tick (s : State) (p : Path) : (s.save p).tick = s.tick := rfl

/-! ### Fields after `State.beginInput` -/

@[simp] theorem State.beginInput_regs (s : State) (c : Reg) : (s.beginInput c).regs = s.regs := rfl
@[simp] theorem State.beginInput_pc (s : State) (c : Reg) : (s.beginInput c).pc = s.pc := rfl
@[simp] theorem State.beginInput_halted (s : State) (c : Reg) : (s.beginInput c).halted = s.halted := rfl
@[simp] theorem State.beginInput_count (s : State) (c : Reg) : (s.beginInput c).count = s.count := rfl
@[simp] theorem State.beginInput_mem (s : State) (c : Reg) : (s.beginInput c).mem = s.mem := rfl
@[simp] theorem State.beginInput_phase (s : State) (c : Reg) : (s.beginInput c).phase = .waitingInput c := rfl
@[simp] theorem State.beginInput_output (s : State) (c : Reg) : (s.beginInput c).output = s.output := rfl
@[simp] theorem State.beginInput_report (s : State) (c : Reg) : (s.beginInput c).report = s.report := rfl
@[simp] theorem State.beginInput_queue (s : State) (c : Reg) : (s.beginInput c).queue = s.queue := rfl
@[simp] theorem State.beginInput_files (s : State) (c : Reg) : (s.beginInput c).files = s.files := rfl
@[simp] theorem State.beginInput_params (s : State) (c : Reg) : (s.beginInput c).params = s.params := rfl
@[simp] theorem State.beginInput_script (s : State) (c : Reg) : (s.beginInput c).script = s.script := rfl
@[simp] theorem State.beginInput_tick (s : State) (c : Reg) : (s.beginInput c).tick = s.tick := rfl

/-! ### Fields after `State.completeInput` -/

@[simp] theorem State.completeInput_regs (s : State) (c : Reg) (a : Answer) : (s.completeInput c a).regs = s.regs.set c (answerWord a) := rfl
@[simp] theorem State.completeInput_pc (s : State) (c : Reg) (a : Answer) : (s.completeInput c a).pc = s.pc := rfl
@[simp] theorem State.completeInput_halted (s : State) (c : Reg) (a : Answer) : (s.completeInput c a).halted = s.halted := rfl
@[simp] theorem State.completeInput_count (s : State) (c : Reg) (a : Answer) : (s.completeInput c a).count = s.count := rfl
@[simp] theorem State.completeInput_mem (s : State) (c : Reg) (a : Answer) : (s.completeInput c a).mem = s.mem := rfl
@[simp] theorem State.completeInput_phase (s : State) (c : Reg) (a : Answer) : (s.completeInput c a).phase = .running := rfl
@[simp] theorem State.completeInput_output (s : State) (c : Reg) (a : Answer) : (s.completeInput c a).output = s.output := rfl
@[simp] theorem State.completeInput_report (s : State) (c : Reg) (a : Answer) : (s.completeInput c a).report = s.report := rfl
@[simp] theorem State.completeInput_queue (s : State) (c : Reg) (a : Answer) : (s.completeInput c a).queue = s.queue := rfl
@[simp] theorem State.completeInput_files (s : State) (c : Reg) (a : Answer) : (s.completeInput c a).files = s.files := rfl
@[simp] theorem State.completeInput_params (s : State) (c : Reg) (a : Answer) : (s.completeInput c a).params = s.params := rfl
@[simp] theorem State.completeInput_script (s : State) (c : Reg) (a : Answer) : (s.completeInput c a).script = s.script := rfl
@[simp] theorem State.completeInput_tick (s : State) (c : Reg) (a : Answer) : (s.completeInput c a).tick = s.tick := rfl

/-! ### Fields after `State.loadImage` -/

@[simp] theorem State.loadImage_regs (s : State) (ws : List Word) : (s.loadImage ws).regs = s.regs := rfl
@[simp] theorem State.loadImage_pc (s : State) (ws : List Word) : (s.loadImage ws).pc = s.pc := rfl
@[simp] theorem State.loadImage_halted (s : State) (ws : List Word) : (s.loadImage ws).halted = s.halted := rfl
@[simp] theorem State.loadImage_count (s : State) (ws : List Word) : (s.loadImage ws).count = s.count := rfl
@[simp] theorem State.loadImage_mem (s : State) (ws : List Word) : (s.loadImage ws).mem = s.mem.put 0 (some (WordArray.ofWords ws)) := rfl
@[simp] theorem State.loadImage_phase (s : State) (ws : List Word) : (s.loadImage ws).phase = s.phase := rfl
@[simp] theorem State.loadImage_output (s : State) (ws : List Word) : (s.loadImage ws).output = s.output := rfl
@[simp] theorem State.loadImage_report (s : State) (ws : List Word) : (s.loadImage ws).report = s.report := rfl
@[simp] theorem State.loadImage_queue (s : State) (ws : List Word) : (s.loadImage ws).queue = s.queue := rfl
@[simp] theorem State.loadImage_files (s : State) (ws : List Word) : (s.loadImage ws).files = s.files := rfl
@[simp] theorem State.loadImage_params (s : State) (ws : List Word) : (s.loadImage ws).params = s.params := rfl
@[simp] theorem State.loadImage_script (s : State) (ws : List Word) : (s.loadImage ws).script = s.script := rfl
@[simp] theorem State.loadImage_tick (s : State) (ws : List Word) : (s.loadImage ws).tick = s.tick := rfl

/-! ### Registers after an update -/

theorem State.reg_setReg (s : State) (r q : Reg) (v : Word) :
    (s.setReg r v).reg q = if r = q then v else s.reg q := by
  simp [State.reg, Vector.getElem_set, Fin.ext_iff]

@[simp] theorem State.reg_setReg_same (s : State) (r : Reg) (v : Word) : (s.setReg r v).reg r = v := by
  simp [State.reg_setReg]

theorem State.reg_setReg_ne (s : State) {r q : Reg} (v : Word) (h : q ≠ r) : (s.setReg r v).reg q = s.reg q := by
  simp [State.reg_setReg, Ne.symm h]

@[simp] theorem State.reg_afterFetch (s : State) (r : Reg) : s.afterFetch.reg r = s.reg r := rfl

@[simp] theorem State.reg_emit (s : State) (v : Byte) (r : Reg) : (s.emit v).reg r = s.reg r := rfl

@[simp] theorem State.reg_save (s : State) (p : Path) (r : Reg) : (s.save p).reg r = s.reg r := rfl

@[simp] theorem State.reg_beginInput (s : State) (c r : Reg) : (s.beginInput c).reg r = s.reg r := rfl

theorem State.reg_completeInput (s : State) (c r : Reg) (a : Answer) :
    (s.completeInput c a).reg r = if c = r then answerWord a else s.reg r := State.reg_setReg s c r _

/-! ### Snapshot and restore -/

@[simp] theorem State.snapshot_restore (s : State) (m : Snapshot) : (s.restore m).snapshot = m := rfl

@[simp] theorem State.restore_snapshot (s : State) : s.restore s.snapshot = s := rfl

@[simp] theorem State.snapshot_save (s : State) (p : Path) : (s.save p).snapshot = s.snapshot := rfl

@[simp] theorem State.snapshot_beginInput (s : State) (c : Reg) : (s.beginInput c).snapshot = s.snapshot := rfl

/-! ### The end of a step -/

/-- A step that leaves the machine waiting is not counted. -/
theorem State.retire_waiting (s : State) {c : Reg} (h : s.phase = .waitingInput c) : s.retire = s := by
  simp [State.retire, h]

/-- Any other step is counted, and ends in phase Halted when `halted` is true. -/
theorem State.retire_done (s : State) (h : ∀ c, s.phase ≠ .waitingInput c) :
    s.retire = { s with count := s.count + 1, phase := if s.halted then .halted else s.phase } := by
  unfold State.retire
  split
  · exact absurd ‹_› (h _)
  · rfl

/-- `retire` changes the count and the phase only. -/
theorem State.retire_frame (s : State) :
    s.retire.snapshot = { s.snapshot with count := s.retire.count } ∧ s.retire.output = s.output ∧
    s.retire.report = s.report ∧ s.retire.queue = s.queue ∧ s.retire.files = s.files ∧ s.retire.params = s.params ∧
    s.retire.script = s.script ∧ s.retire.tick = s.tick := by
  unfold State.retire
  split <;> simp [State.snapshot]

end Sys2Proof.Machine
end

