-- ==== Sys2Proof/Laws/Memory.lean ====
section
/-! SUPPORT. The Array Store's laws: reading after writing a word, and every store operation keeps the canonical form
and the store's invariants (`Memory.wf`). One lemma per primitive says everything it can answer. -/

namespace Sys2Proof.Machine

/-! ### Cells -/

theorem cellRead_eq_unlisted {cs : List (Nat × Word)} {i : Nat} (h : ∀ p ∈ cs, p.1 ≠ i) :
    cellRead cs i = unlistedWord := by
  induction cs with
  | nil => rfl
  | cons p cs ih =>
    have hp := h p (by simp)
    simp only [cellRead, hp, if_false]
    exact ih fun q hq => h q (List.mem_cons_of_mem _ hq)

/-- A write leaves every other index as it was, whatever the list. -/
theorem cellRead_cellWrite_ne (cs : List (Nat × Word)) {i j : Nat} (v : Word) (h : j ≠ i) :
    cellRead (cellWrite cs i v) j = cellRead cs j := by
  have h' : i ≠ j := Ne.symm h
  induction cs with
  | nil => by_cases hv : v = unlistedWord <;> simp [cellWrite, cellRead, hv, h']
  | cons p cs ih =>
    obtain ⟨k, u⟩ := p
    unfold cellWrite
    split_ifs with h1 h2 h3 h3
    · simp [cellRead, ih]
    · have : k ≠ j := by omega
      simp [cellRead, this]
    · have : k ≠ j := by omega
      simp [cellRead, this, h']
    · rfl
    · simp [cellRead, h']

/-- A read gives the value written there; the list's indices rise. -/
theorem cellRead_cellWrite_same {cs : List (Nat × Word)} (hs : cs.Pairwise fun p q => p.1 < q.1) (i : Nat) (v : Word) :
    cellRead (cellWrite cs i v) i = v := by
  induction cs with
  | nil => by_cases hv : v = unlistedWord <;> simp [cellWrite, cellRead, hv]
  | cons p cs ih =>
    obtain ⟨k, u⟩ := p
    obtain ⟨hk, hs'⟩ := List.pairwise_cons.1 hs
    unfold cellWrite
    split_ifs with h1 h2 h3 h3
    · have : k ≠ i := by omega
      simp [cellRead, this, ih hs']
    · rw [h3]
      exact cellRead_eq_unlisted fun q hq => by have := hk q hq; simp at this; omega
    · simp [cellRead]
    · rw [h3]
      refine cellRead_eq_unlisted fun q hq => ?_
      rcases List.mem_cons.1 hq with rfl | hq
      · exact h2
      · have := hk q hq; simp at this; omega
    · simp [cellRead]

/-- The cells after a write: each is an old one or the new one, and the new one is not zero. -/
theorem mem_cellWrite {cs : List (Nat × Word)} {i : Nat} {v : Word} {p : Nat × Word} (hp : p ∈ cellWrite cs i v) :
    p ∈ cs ∨ p = (i, v) ∧ v ≠ unlistedWord := by
  induction cs with
  | nil =>
    by_cases hv : v = unlistedWord
    · simp [cellWrite, hv] at hp
    · simp [cellWrite, hv] at hp; exact .inr ⟨hp, hv⟩
  | cons q cs ih =>
    obtain ⟨k, u⟩ := q
    unfold cellWrite at hp
    split_ifs at hp with h1 h2 h3 h3
    · rcases List.mem_cons.1 hp with rfl | hp
      · simp
      · exact (ih hp).imp (List.mem_cons_of_mem _) id
    · exact .inl (List.mem_cons_of_mem _ hp)
    · exact (List.mem_cons.1 hp).symm.imp (List.mem_cons_of_mem _) fun e => ⟨e, h3⟩
    · exact .inl hp
    · exact (List.mem_cons.1 hp).symm.imp id fun e => ⟨e, h3⟩

theorem cellWrite_pairwise {cs : List (Nat × Word)} (hs : cs.Pairwise fun p q => p.1 < q.1) (i : Nat) (v : Word) :
    (cellWrite cs i v).Pairwise fun p q => p.1 < q.1 := by
  induction cs with
  | nil => by_cases hv : v = unlistedWord <;> simp [cellWrite, hv]
  | cons q cs ih =>
    obtain ⟨k, u⟩ := q
    obtain ⟨hk, hs'⟩ := List.pairwise_cons.1 hs
    unfold cellWrite
    split_ifs with h1 h2 h3 h3
    · refine List.pairwise_cons.2 ⟨fun p hp => ?_, ih hs'⟩
      rcases mem_cellWrite hp with h | ⟨rfl, -⟩
      · exact hk p h
      · exact h1
    · exact hs'
    · exact List.pairwise_cons.2 ⟨fun p hp => by have := hk p hp; simp at this ⊢; omega, hs'⟩
    · exact hs
    · refine List.pairwise_cons.2 ⟨fun p hp => ?_, hs⟩
      rcases List.mem_cons.1 hp with rfl | hp
      · simp; omega
      · have := hk p hp; simp at this ⊢; omega

/-! ### Arrays -/

@[simp] theorem WordArray.len_write (a : WordArray) (i : Nat) (v : Word) : (a.write i v).len = a.len := rfl

@[simp] theorem WordArray.len_zeros (n : Nat) : (WordArray.zeros n).len = n := rfl

@[simp] theorem WordArray.read_zeros (n i : Nat) : (WordArray.zeros n).read i = 0 := rfl

@[simp] theorem WordArray.len_ofWords (ws : List Word) : (WordArray.ofWords ws).len = ws.length := rfl

theorem WordArray.read_write_same {a : WordArray} (ha : a.wf) (i : Nat) (v : Word) : (a.write i v).read i = v :=
  cellRead_cellWrite_same ha.2.1 i v

theorem WordArray.read_write_ne (a : WordArray) {i j : Nat} (v : Word) (h : j ≠ i) :
    (a.write i v).read j = a.read j := cellRead_cellWrite_ne _ v h

theorem WordArray.wf_write {a : WordArray} (ha : a.wf) {i : Nat} (hi : i < a.len) (v : Word) : (a.write i v).wf := by
  refine ⟨ha.1, cellWrite_pairwise ha.2.1 i v, fun p hp => ?_⟩
  rcases mem_cellWrite hp with h | ⟨rfl, hv⟩
  · exact ha.2.2 p h
  · exact ⟨hi, hv⟩

theorem WordArray.wf_zeros {n : Nat} (hn : n < 2 ^ 32) : (WordArray.zeros n).wf :=
  ⟨hn, List.Pairwise.nil, by simp [WordArray.zeros]⟩

theorem mem_cellsFrom {ws : List Word} {k : Nat} {p : Nat × Word} (hp : p ∈ cellsFrom k ws) :
    k ≤ p.1 ∧ p.1 < k + ws.length ∧ p.2 ≠ unlistedWord := by
  induction ws generalizing k with
  | nil => simp [cellsFrom] at hp
  | cons w ws ih =>
    unfold cellsFrom at hp
    split_ifs at hp with h
    · obtain ⟨h1, h2, h3⟩ := ih hp
      exact ⟨by omega, by simp only [List.length_cons]; omega, h3⟩
    · rcases List.mem_cons.1 hp with rfl | hp
      · simp [h]
      · obtain ⟨h1, h2, h3⟩ := ih hp
        exact ⟨by omega, by simp only [List.length_cons]; omega, h3⟩

theorem cellsFrom_pairwise (ws : List Word) (k : Nat) : (cellsFrom k ws).Pairwise fun p q => p.1 < q.1 := by
  induction ws generalizing k with
  | nil => simp [cellsFrom]
  | cons w ws ih =>
    unfold cellsFrom
    split_ifs
    · exact ih _
    · exact List.pairwise_cons.2 ⟨fun p hp => by have := (mem_cellsFrom hp).1; simp; omega, ih _⟩

theorem cellRead_cellsFrom (ws : List Word) (k i : Nat) :
    cellRead (cellsFrom k ws) (k + i) = ws.getD i unlistedWord := by
  induction ws generalizing k i with
  | nil => simp [cellsFrom, cellRead]
  | cons w ws ih =>
    cases i with
    | zero =>
      unfold cellsFrom
      split_ifs with h
      · refine (cellRead_eq_unlisted fun p hp => ?_).trans (by simp [h])
        have := (mem_cellsFrom hp).1; omega
      · simp [cellRead]
    | succ i =>
      have e : k + (i + 1) = (k + 1) + i := by omega
      unfold cellsFrom
      split_ifs with h
      · rw [e, ih]; simp
      · have : k ≠ k + (i + 1) := by omega
        rw [cellRead, if_neg this, e, ih]; simp

/-- The array of an image holds the image's words. -/
theorem WordArray.read_ofWords (ws : List Word) (i : Nat) : (WordArray.ofWords ws).read i = ws.getD i 0 := by
  have := cellRead_cellsFrom ws 0 i
  simpa [WordArray.read, WordArray.ofWords, unlistedWord] using this

theorem WordArray.wf_ofWords {ws : List Word} (h : ws.length < 2 ^ 32) : (WordArray.ofWords ws).wf :=
  ⟨h, cellsFrom_pairwise ws 0, fun p hp => by have := mem_cellsFrom hp; exact ⟨by simpa using this.2.1, this.2.2⟩⟩

/-! ### The store -/

@[simp] theorem Memory.count_put (m : Memory) (h : Nat) (a : Option WordArray) : (m.put h a).count = m.count := by
  simp [Memory.count, Memory.put]

@[simp] theorem Memory.free_put (m : Memory) (h : Nat) (a : Option WordArray) : (m.put h a).free = m.free := rfl

theorem Memory.lookup_put (m : Memory) (h g : Nat) (a : Option WordArray) (hh : h < m.count) :
    (m.put h a).lookup g = if h = g then a else m.lookup g := by
  unfold Memory.lookup Memory.put
  simp only [List.getD_eq_getElem?_getD, List.getElem?_set]
  split_ifs with h1 h2
  · rfl
  · subst h1; exact absurd hh h2
  · rfl

theorem Memory.lt_of_lookup {m : Memory} {h : Nat} {a : WordArray} (e : m.lookup h = some a) : h < m.count := by
  by_contra hn
  have hl : m.arrays.length ≤ h := by simpa [Memory.count] using hn
  simp [Memory.lookup, List.getElem?_eq_none hl] at e

theorem Memory.live_iff {m : Memory} {h : Nat} : m.live h = true ↔ ∃ a, m.lookup h = some a := by
  simp [Memory.live, Option.isSome_iff_exists]

theorem Memory.live_put (m : Memory) (h g : Nat) (a : Option WordArray) (hh : h < m.count) :
    (m.put h a).live g = if h = g then a.isSome else m.live g := by
  simp only [Memory.live, Memory.lookup_put m h g a hh]; split_ifs <;> rfl

/-- Replacing a live array by a well-formed one keeps the store's invariants. -/
theorem Memory.wf_put_live {m : Memory} (hm : m.wf) {h : Nat} (hl : m.live h = true) {a : WordArray} (ha : a.wf) :
    (m.put h (some a)).wf := by
  obtain ⟨b, hb⟩ := Memory.live_iff.1 hl
  have hlt := Memory.lt_of_lookup hb
  obtain ⟨h1, h2, h3, h4, h5, h6⟩ := hm
  have live : ∀ g, (m.put h (some a)).live g = m.live g := fun g => by
    rw [Memory.live_put m h g _ hlt]; split_ifs with e
    · subst e; simp [hl]
    · rfl
  refine ⟨fun g hg c hc => ?_, by simpa using h2, by rw [live]; exact h3, h4, fun g hg => ?_, fun g hg hgl => ?_⟩
  · rw [Memory.lookup_put m h g _ hlt] at hc
    split_ifs at hc with e
    · cases hc; exact ha
    · exact h1 g (by simpa using hg) c hc
  · rw [live]; simpa using h5 g hg
  · rw [live] at hgl; exact h6 g (by simpa using hg) hgl

/-! ### The primitives -/

/-- Everything `memRead` can answer. -/
theorem memRead_cases (m : Memory) (h i : Word) :
    (m.live h.toNat = false ∧ memRead m h i = .error (.handle h)) ∨
    ∃ a, m.lookup h.toNat = some a ∧
      ((a.len ≤ i.toNat ∧ memRead m h i = .error (.index h i)) ∨
       (i.toNat < a.len ∧ memRead m h i = .ok (a.read i.toNat))) := by
  unfold memRead
  cases e : m.lookup h.toNat with
  | none => left; simp [Memory.live, e]
  | some a =>
    right; refine ⟨a, rfl, ?_⟩
    by_cases hi : i.toNat < a.len
    · right; simp [hi]
    · left; simp [hi]; omega

/-- Everything `memWrite` can answer. -/
theorem memWrite_cases (m : Memory) (h i v : Word) :
    (m.live h.toNat = false ∧ memWrite m h i v = .error (.handle h)) ∨
    ∃ a, m.lookup h.toNat = some a ∧
      ((a.len ≤ i.toNat ∧ memWrite m h i v = .error (.index h i)) ∨
       (i.toNat < a.len ∧ memWrite m h i v = .ok (m.put h.toNat (some (a.write i.toNat v))))) := by
  unfold memWrite
  cases e : m.lookup h.toNat with
  | none => left; simp [Memory.live, e]
  | some a =>
    right; refine ⟨a, rfl, ?_⟩
    by_cases hi : i.toNat < a.len
    · right; simp [hi]
    · left; simp [hi]; omega

theorem memWrite_wf {m m' : Memory} {h i v : Word} (hm : m.wf) (e : memWrite m h i v = .ok m') : m'.wf := by
  rcases memWrite_cases m h i v with ⟨-, h'⟩ | ⟨a, ha, ⟨-, h'⟩ | ⟨hi, h'⟩⟩
  · simp [h'] at e
  · simp [h'] at e
  · rw [h'] at e; cases e
    exact Memory.wf_put_live hm (Memory.live_iff.2 ⟨a, ha⟩)
      (WordArray.wf_write (hm.1 _ (Memory.lt_of_lookup ha) a ha) hi v)

/-- Everything `memFetch` can answer. -/
theorem memFetch_cases (m : Memory) (pc : Nat) :
    memFetch m pc = .error (.fetch pc) ∨
    ∃ a, m.lookup 0 = some a ∧ pc < a.len ∧ memFetch m pc = .ok (a.read pc) := by
  unfold memFetch
  cases e : m.lookup 0 with
  | none => left; rfl
  | some a =>
    by_cases hi : pc < a.len
    · right; exact ⟨a, rfl, hi, by simp [hi]⟩
    · left; simp [hi]

/-- Everything `memCopyToZero` can answer. -/
theorem memCopyToZero_cases (m : Memory) (h : Word) :
    (m.live h.toNat = false ∧ memCopyToZero m h = .error (.handle h)) ∨
    ∃ a, m.lookup h.toNat = some a ∧ memCopyToZero m h = .ok (m.put 0 (some a)) := by
  unfold memCopyToZero
  cases e : m.lookup h.toNat with
  | none => left; simp [Memory.live, e]
  | some a => right; exact ⟨a, rfl, rfl⟩

theorem memCopyToZero_wf {m m' : Memory} {h : Word} (hm : m.wf) (e : memCopyToZero m h = .ok m') : m'.wf := by
  rcases memCopyToZero_cases m h with ⟨-, h'⟩ | ⟨a, ha, h'⟩
  · simp [h'] at e
  · rw [h'] at e; cases e
    exact Memory.wf_put_live hm hm.2.2.1 (hm.1 _ (Memory.lt_of_lookup ha) a ha)

/-- Everything `memFree` can answer. -/
theorem memFree_cases (m : Memory) (h : Word) :
    (h = 0 ∧ memFree m h = .error .free0) ∨
    (h ≠ 0 ∧ m.live h.toNat = false ∧ memFree m h = .error (.freeDead h)) ∨
    (h ≠ 0 ∧ m.live h.toNat = true ∧
      memFree m h = .ok { (m.put h.toNat none) with free := h.toNat :: m.free }) := by
  unfold memFree
  by_cases h0 : h = 0
  · left; simp [h0]
  · right
    cases e : m.lookup h.toNat with
    | none => exact .inl ⟨h0, by simp [Memory.live, e], by rw [if_neg h0]⟩
    | some a => exact .inr ⟨h0, by simp [Memory.live, e], by rw [if_neg h0]⟩

theorem memFree_wf {m m' : Memory} {h : Word} (hm : m.wf) (e : memFree m h = .ok m') : m'.wf := by
  rcases memFree_cases m h with ⟨-, h'⟩ | ⟨-, -, h'⟩ | ⟨h0, hl, h'⟩
  · simp [h'] at e
  · simp [h'] at e
  · rw [h'] at e; cases e
    obtain ⟨h1, h2, h3, h4, h5, h6⟩ := hm
    obtain ⟨a, ha⟩ := Memory.live_iff.1 hl
    have hlt := Memory.lt_of_lookup ha
    have hz : h.toNat ≠ 0 := fun hz => h0 (BitVec.eq_of_toNat_eq (by simpa using hz))
    have live : ∀ g, ({ (m.put h.toNat none) with free := h.toNat :: m.free } : Memory).live g =
        if h.toNat = g then false else m.live g := fun g => by
      have := Memory.live_put m h.toNat g none hlt; simpa [Memory.live, Memory.lookup] using this
    refine ⟨fun g hg c hc => ?_, by simpa [Memory.count, Memory.put] using h2, by rw [live]; simp [hz, h3], ?_, ?_, ?_⟩
    · have hc' : (m.put h.toNat none).lookup g = some c := hc
      rw [Memory.lookup_put m _ g _ hlt] at hc'
      split_ifs at hc' with e
      exact h1 g (Memory.lt_of_lookup hc') c hc'
    · refine List.nodup_cons.2 ⟨fun hin => ?_, h4⟩
      simp [(h5 _ hin).2] at hl
    · intro g hg
      rw [live]
      rcases List.mem_cons.1 hg with rfl | hg
      · exact ⟨by simpa [Memory.count, Memory.put] using hlt, by simp⟩
      · exact ⟨by simpa [Memory.count, Memory.put] using (h5 g hg).1, by simp [(h5 g hg).2]⟩
    · intro g hg hgl
      rw [live] at hgl
      split_ifs at hgl with e
      · simp [e]
      · exact List.mem_cons_of_mem _ (h6 g (by simpa [Memory.count, Memory.put] using hg) hgl)

/-- Everything `memAlloc` can answer. -/
theorem memAlloc_cases (cap : Option Nat) (m : Memory) (n : Word) :
    ((exceedsCapacity cap m n.toNat = true ∨ m.free = [] ∧ 2 ^ 32 ≤ m.count) ∧ memAlloc cap m n = .error (.alloc n)) ∨
    (exceedsCapacity cap m n.toNat = false ∧
      ((∃ h rest, m.free = h :: rest ∧
          memAlloc cap m n =
            .ok (BitVec.ofNat 32 h, { (m.put h (some (WordArray.zeros n.toNat))) with free := rest })) ∨
       (m.free = [] ∧ m.count < 2 ^ 32 ∧
          memAlloc cap m n =
            .ok (BitVec.ofNat 32 m.count, { m with arrays := m.arrays ++ [some (WordArray.zeros n.toNat)] })))) := by
  unfold memAlloc
  by_cases hc : exceedsCapacity cap m n.toNat = true
  · left; simp [hc]
  · simp only [Bool.not_eq_true] at hc
    cases e : m.free with
    | cons h rest => right; simp [hc]
    | nil =>
      by_cases hN : 2 ^ 32 ≤ m.count
      · left; simp [hc]; omega
      · right; simp [hc]; omega

theorem Memory.lookup_append (m : Memory) (a : WordArray) (g : Nat) :
    ({ m with arrays := m.arrays ++ [some a] } : Memory).lookup g = if g = m.count then some a else m.lookup g := by
  unfold Memory.lookup Memory.count
  simp only [List.getD_eq_getElem?_getD]
  by_cases h1 : g < m.arrays.length
  · simp [List.getElem?_append_left h1, Nat.ne_of_lt h1]
  · by_cases h2 : g = m.arrays.length
    · subst h2; simp
    · have : m.arrays.length + 1 ≤ g := by omega
      simp [List.getElem?_eq_none, this, h2, show m.arrays.length ≤ g by omega]

theorem memAlloc_wf {cap : Option Nat} {m m' : Memory} {n h : Word} (hm : m.wf) (e : memAlloc cap m n = .ok (h, m')) :
    m'.wf := by
  have hz : (WordArray.zeros n.toNat).wf := WordArray.wf_zeros n.isLt
  obtain ⟨h1, h2, h3, h4, h5, h6⟩ := hm
  rcases memAlloc_cases cap m n with ⟨-, h'⟩ | ⟨-, ⟨g, rest, hf, h'⟩ | ⟨hf, hN, h'⟩⟩
  · simp [h'] at e
  · rw [h'] at e; cases e
    rw [hf] at h4 h5 h6
    obtain ⟨hg, hnd⟩ := List.nodup_cons.1 h4
    obtain ⟨hlt, hdead⟩ := h5 g (by simp)
    have live : ∀ k, ({ (m.put g (some (WordArray.zeros n.toNat))) with free := rest } : Memory).live k =
        if g = k then true else m.live k := fun k => by
      have := Memory.live_put m g k (some (WordArray.zeros n.toNat)) hlt; simpa [Memory.live, Memory.lookup] using this
    refine ⟨fun k hk c hc => ?_, by simpa [Memory.count, Memory.put] using h2, by rw [live]; simp [h3], hnd, ?_, ?_⟩
    · have hc' : (m.put g (some (WordArray.zeros n.toNat))).lookup k = some c := hc
      rw [Memory.lookup_put m _ k _ hlt] at hc'
      split_ifs at hc' with e
      · cases hc'; exact hz
      · exact h1 k (Memory.lt_of_lookup hc') c hc'
    · intro k hk
      have hne : g ≠ k := fun e => hg (e ▸ hk)
      rw [live]
      exact ⟨by simpa [Memory.count, Memory.put] using (h5 k (List.mem_cons_of_mem _ hk)).1,
        by simp [hne, (h5 k (List.mem_cons_of_mem _ hk)).2]⟩
    · intro k hk hkl
      rw [live] at hkl
      split_ifs at hkl with e
      exact (List.mem_cons.1 (h6 k (by simpa [Memory.count, Memory.put] using hk) hkl)).resolve_left (Ne.symm e)
  · rw [h'] at e; cases e
    have hcount : ({ m with arrays := m.arrays ++ [some (WordArray.zeros n.toNat)] } : Memory).count = m.count + 1 := by
      simp [Memory.count]
    have live : ∀ k, ({ m with arrays := m.arrays ++ [some (WordArray.zeros n.toNat)] } : Memory).live k =
        if k = m.count then true else m.live k := fun k => by
      simp only [Memory.live, Memory.lookup_append]; split_ifs <;> rfl
    refine ⟨fun k hk c hc => ?_, by rw [hcount]; omega, by rw [live]; simp [h3], h4, ?_, ?_⟩
    · rw [Memory.lookup_append] at hc
      split_ifs at hc with e
      · cases hc; exact hz
      · exact h1 k (Memory.lt_of_lookup hc) c hc
    · intro k hk
      simp [hf] at hk
    · intro k hk hkl
      rw [live] at hkl
      split_ifs at hkl with e
      rw [hcount] at hk
      exact h6 k (by omega) hkl

/-- Reset's store meets the store's invariants. -/
theorem reset_memory_wf : State.reset.mem.wf := by decide

end Sys2Proof.Machine
end

