-- ==== Sys2Proof/Laws/Step.lean ====
section
/-! SUPPORT. What a step, a poll of the input wait and a host command can do, each said once; the views of memory after
an operation. -/

namespace Sys2Proof.Machine

/-! ### Outcomes -/

/-- A primitive's outcome is a next state exactly when the primitive succeeds. -/
theorem outcome_map_next {α : Type} {r : Except Fault α} {f : α → State} {t : State} :
    outcome (r.map f) = .next t ↔ ∃ a, r = .ok a ∧ t = f a := by
  cases r <;> simp [outcome, Except.map, eq_comm]

theorem outcome_map_fault {α : Type} {r : Except Fault α} {f : α → State} {e : Fault} :
    outcome (r.map f) = .fault e ↔ r = .error e := by
  cases r <;> simp [outcome, Except.map]

theorem outcome_ne_refused {r : Except Fault State} {e : Refusal} : outcome r ≠ .refused e := by
  cases r <;> simp [outcome]

theorem retireOutcome_next {o : Host.Outcome State Fault Refusal} {t : State} :
    retireOutcome o = .next t ↔ ∃ u, o = .next u ∧ t = u.retire := by
  cases o <;> simp [retireOutcome, eq_comm]

theorem retireOutcome_fault {o : Host.Outcome State Fault Refusal} {f : Fault} :
    retireOutcome o = .fault f ↔ o = .fault f := by
  cases o <;> simp [retireOutcome]

/-! ### Views of memory -/

theorem State.wordAt_of_mem {s t : State} (h : t.mem = s.mem) (g i : Nat) : t.wordAt g i = s.wordAt g i := by
  simp [State.wordAt, h]

theorem StoreSame.of_mem {s t : State} (h : t.mem = s.mem) : StoreSame s t := by
  simp [StoreSame, State.wordAt, State.lenAt, State.arrayCount, h]

theorem State.wordAt_eq_some {s : State} {h i : Nat} {w : Word} :
    s.wordAt h i = some w ↔ ∃ a, s.mem.lookup h = some a ∧ i < a.len ∧ w = a.read i := by
  unfold State.wordAt
  cases e : s.mem.lookup h with
  | none => simp
  | some a => by_cases hi : i < a.len <;> simp [hi, eq_comm]

theorem State.lenAt_eq_some {s : State} {h n : Nat} :
    s.lenAt h = some n ↔ ∃ a, s.mem.lookup h = some a ∧ a.len = n := by
  simp [State.lenAt, Option.map_eq_some_iff]

theorem State.lenAt_eq_none {s : State} {h : Nat} : s.lenAt h = none ↔ s.mem.live h = false := by
  simp [State.lenAt, Memory.live]

/-- The fetch reads word `pc` of array 0, or raises `F_FETCH` (R81). -/
theorem State.fetch_ok {s : State} {w : Word} : s.fetch = .ok w ↔ s.wordAt 0 s.pc = some w := by
  rw [State.wordAt_eq_some]
  unfold State.fetch memFetch
  cases e : s.mem.lookup 0 with
  | none => simp
  | some a => by_cases hi : s.pc < a.len <;> simp [hi, eq_comm]

theorem State.fetch_error {s : State} {f : Fault} : s.fetch = .error f ↔ s.wordAt 0 s.pc = none ∧ f = .fetch s.pc := by
  unfold State.fetch memFetch State.wordAt
  cases e : s.mem.lookup 0 with
  | none => simp [eq_comm]
  | some a => by_cases hi : s.pc < a.len <;> simp [hi, eq_comm]

/-! ### The input wait -/

/-- Consuming an event changes the model's own script and tick, and nothing else. -/
theorem State.nextEvent_frame (s : State) : ∃ sc k, s.nextEvent.2 = { s with script := sc, tick := k } := by
  unfold State.nextEvent
  split
  · exact ⟨_, s.tick, rfl⟩
  · split
    · exact ⟨s.script, s.tick, rfl⟩
    · exact ⟨s.script, _, rfl⟩

/-- Everything a Load can do: nothing to the Machine State, or the whole of it replaced by a well-formed blob's. -/
theorem State.load_cases (s : State) (p : Path) :
    s.load p = { s with tick := s.tick + 1 } ∨
    ∃ m, s.blobAt p = .snapshot m ∧ m.wf ∧ s.load p = ({ s with tick := s.tick + 1 } : State).restore m := by
  unfold State.load
  cases e : s.blobAt p with
  | unreadable => left; rfl
  | snapshot m =>
    by_cases hm : m.wf
    · right; exact ⟨m, rfl, hm, by simp only [if_pos hm]⟩
    · left; simp only [if_neg hm]

/-- Everything the command port can do at one poll: nothing; or the head of the queue is taken, and has no effect, or
is a Save, or a Load. -/
theorem State.serveEvent_cases (s : State) (ok : Bool) :
    s.serveEvent ok = s ∨
    ∃ c rest, s.params.hostCommands = true ∧ s.queue = c :: rest ∧
      ((ok = false ∧ s.serveEvent ok = { s with queue := rest }) ∨
       (∃ p, c = .save p ∧ s.serveEvent ok = ({ s with queue := rest } : State).save p) ∨
       (∃ p, c = .load p ∧ s.serveEvent ok = ({ s with queue := rest } : State).load p)) := by
  unfold State.serveEvent
  by_cases hp : s.params.hostCommands
  · simp only [hp, if_true]
    unfold State.serve
    cases e : s.queue with
    | nil => left; rfl
    | cons c rest =>
      right; refine ⟨c, rest, trivial, rfl, ?_⟩
      cases ok with
      | false => left; exact ⟨rfl, rfl⟩
      | true =>
        right
        cases c with
        | save p => left; exact ⟨p, rfl, rfl⟩
        | load p => right; exact ⟨p, rfl, rfl⟩
  · left; simp [hp]

/-! ### The step -/

/-- Everything a step can do when it answers a next state. -/
theorem step_next_cases {s t : State} (h : step s = .next t) :
    (s.phase = .running ∧ ∃ w u, s.fetch = .ok w ∧ exec (decode w) s.afterFetch = .next u ∧ t = u.retire) ∨
    (∃ c, s.phase = .waitingInput c ∧ t = (s.poll c).retire) ∨
    (s.phase = .halted ∧ t = s) := by
  unfold step runCycle waitCycle at h
  cases hp : s.phase with
  | running =>
    rw [hp] at h
    cases hf : s.fetch with
    | error f => simp [hf] at h
    | ok w =>
      simp only [hf] at h
      obtain ⟨u, hu, rfl⟩ := retireOutcome_next.1 h
      exact .inl ⟨rfl, w, u, rfl, hu, rfl⟩
  | waitingInput c => rw [hp] at h; cases h; exact .inr (.inl ⟨c, rfl, rfl⟩)
  | halted => rw [hp] at h; cases h; exact .inr (.inr ⟨rfl, rfl⟩)
  | faulted f => rw [hp] at h; cases h

/-- Everything a step can do when it answers a fault. -/
theorem step_fault_cases {s : State} {f : Fault} (h : step s = .fault f) :
    (s.phase = .running ∧ s.fetch = .error f) ∨
    (s.phase = .running ∧ ∃ w, s.fetch = .ok w ∧ exec (decode w) s.afterFetch = .fault f) ∨
    s.phase = .faulted f := by
  unfold step runCycle waitCycle at h
  cases hp : s.phase with
  | running =>
    rw [hp] at h
    cases hf : s.fetch with
    | error g => simp only [hf] at h; cases h; exact .inl ⟨rfl, rfl⟩
    | ok w => simp only [hf] at h; exact .inr (.inl ⟨rfl, w, rfl, retireOutcome_fault.1 h⟩)
  | waitingInput c => rw [hp] at h; cases h
  | halted => rw [hp] at h; cases h
  | faulted g => rw [hp] at h; cases h; exact .inr (.inr rfl)

/-- A running step with a word to fetch executes the decoded instruction. -/
theorem step_running {s : State} {w : Word} (hp : s.phase = .running) (hf : s.fetch = .ok w) :
    step s = retireOutcome (exec (decode w) s.afterFetch) := by
  simp [step, runCycle, hp, hf]

theorem step_waiting {s : State} {c : Reg} (hp : s.phase = .waitingInput c) : step s = .next (s.poll c).retire := by
  simp [step, waitCycle, hp]

theorem step_halted {s : State} (hp : s.phase = .halted) : step s = .next s := by
  simp [step, hp]

/-! ### Placing a word, loading an image -/

/-- The store after `placeWord` keeps its invariants where the index leaves room for the array's length. -/
theorem Memory.wf_placeWord {m : Memory} (hm : m.wf) {i : Nat} (hi : i + 1 < 2 ^ 32) (w : Word) : (m.placeWord i w).wf := by
  obtain ⟨a, ha⟩ := Memory.live_iff.1 hm.2.2.1
  have hlt := Memory.lt_of_lookup ha
  have haw := hm.1 0 hlt a ha
  have e : m.placeWord i w = m.put 0 (some { (a.write i w) with len := max a.len (i + 1) }) := by
    unfold Memory.placeWord Memory.put
    cases hl : m.arrays with
    | nil => simp [Memory.lookup, hl] at ha
    | cons b rest =>
      have : b = some a := by simpa [Memory.lookup, hl] using ha
      subst this; simp
  rw [e]
  refine Memory.wf_put_live hm hm.2.2.1 ⟨?_, cellWrite_pairwise haw.2.1 i w, fun p hp => ?_⟩
  · have := haw.1; simp only [max_lt_iff]; omega
  · rcases mem_cellWrite hp with h | ⟨rfl, hv⟩
    · have := haw.2.2 p h
      exact ⟨lt_of_lt_of_le this.1 (le_max_left _ _), this.2⟩
    · exact ⟨by simp, hv⟩

theorem State.loadImage_wf {s : State} (hs : s.mem.wf) {ws : List Word} (h : ws.length < 2 ^ 32) :
    (s.loadImage ws).mem.wf := Memory.wf_put_live hs hs.2.2.1 (WordArray.wf_ofWords h)

end Sys2Proof.Machine
end

