-- ==== Sys2Proof/Laws/Exec.lean ====
section
/-! SUPPORT. What every instruction but IN leaves as it was, said once over all of them. IN's wait may load a whole
Machine State; Sys2Proof/Laws/Input.lean says what a poll can do. -/

namespace Sys2Proof.Machine

/-- What a next state of execute keeps of the state before, for an instruction that is not IN. -/
structure ExecKeeps (i : Instr) (s t : State) : Prop where
  /-- The phase is not the instruction's to change. -/
  phase : t.phase = s.phase
  /-- The count is not the instruction's to change. -/
  count : t.count = s.count
  /-- No command arrives or is applied. -/
  queue : t.queue = s.queue
  /-- No blob is saved. -/
  files : t.files = s.files
  /-- The parameters are fixed. -/
  params : t.params = s.params
  /-- No event is consumed. -/
  script : t.script = s.script
  /-- No free value is drawn. -/
  tick : t.tick = s.tick
  /-- Only HALT sets the flag. -/
  halted : t.halted = if i = .halt then true else s.halted
  /-- Only LOADPROG moves the finger. -/
  pc : (∃ b c, i = .loadprog b c ∧ t.pc = (s.reg c).toNat) ∨ ((∀ b c, i ≠ .loadprog b c) ∧ t.pc = s.pc)
  /-- The store's invariants are kept. -/
  wf : s.mem.wf → t.mem.wf
  /-- The array count never falls, and rises by at most one. -/
  arrayCount : s.arrayCount ≤ t.arrayCount ∧ t.arrayCount ≤ s.arrayCount + 1

theorem ExecKeeps.of_regs (i : Instr) (s : State) (regs : Vector Word 8) (hh : i ≠ .halt)
    (hl : ∀ b c, i ≠ .loadprog b c) : ExecKeeps i s { s with regs := regs } :=
  ⟨rfl, rfl, rfl, rfl, rfl, rfl, rfl, by rw [if_neg hh], .inr ⟨hl, rfl⟩, id, le_refl _, Nat.le_succ _⟩

theorem ExecKeeps.of_mem (i : Instr) (s : State) (m : Memory) (regs : Vector Word 8) (hh : i ≠ .halt)
    (hl : ∀ b c, i ≠ .loadprog b c) (hw : s.mem.wf → m.wf) (hc : s.mem.count ≤ m.count ∧ m.count ≤ s.mem.count + 1) :
    ExecKeeps i s { s with mem := m, regs := regs } :=
  ⟨rfl, rfl, rfl, rfl, rfl, rfl, rfl, by rw [if_neg hh], .inr ⟨hl, rfl⟩, hw, hc⟩

theorem exec_keeps {i : Instr} {s t : State} (hi : ∀ c, i ≠ .input c) (h : exec i s = .next t) : ExecKeeps i s t := by
  cases i with
  | cmov a b c =>
    simp only [exec, execCmov, Host.Outcome.next.injEq] at h; subst h
    split_ifs
    · exact .of_regs _ s s.regs (by simp) (by simp)
    · exact .of_regs _ s _ (by simp) (by simp)
  | index a b c =>
    simp only [exec, execIndex] at h
    obtain ⟨v, -, rfl⟩ := outcome_map_next.1 h
    exact .of_regs _ s _ (by simp) (by simp)
  | amend a b c =>
    simp only [exec, execAmend] at h
    obtain ⟨m, hm, rfl⟩ := outcome_map_next.1 h
    have hc : m.count = s.mem.count := by
      rcases memWrite_cases s.mem (s.reg a) (s.reg b) (s.reg c) with ⟨-, e⟩ | ⟨x, -, ⟨-, e⟩ | ⟨-, e⟩⟩ <;>
        rw [e] at hm <;> cases hm
      simp
    exact .of_mem _ s m s.regs (by simp) (by simp) (fun hw => memWrite_wf hw hm) (by omega)
  | add a b c =>
    simp only [exec, execAdd, Host.Outcome.next.injEq] at h; subst h
    exact .of_regs _ s _ (by simp) (by simp)
  | mul a b c =>
    simp only [exec, execMul, Host.Outcome.next.injEq] at h; subst h
    exact .of_regs _ s _ (by simp) (by simp)
  | div a b c =>
    simp only [exec, execDiv] at h
    obtain ⟨v, -, rfl⟩ := outcome_map_next.1 h
    exact .of_regs _ s _ (by simp) (by simp)
  | nand a b c =>
    simp only [exec, execNand, Host.Outcome.next.injEq] at h; subst h
    exact .of_regs _ s _ (by simp) (by simp)
  | halt =>
    simp only [exec, execHalt, Host.Outcome.next.injEq] at h; subst h
    exact ⟨rfl, rfl, rfl, rfl, rfl, rfl, rfl, by simp, .inr ⟨by simp, rfl⟩, id, le_refl _, Nat.le_succ _⟩
  | alloc b c =>
    simp only [exec, execAlloc] at h
    obtain ⟨⟨g, m⟩, hm, rfl⟩ := outcome_map_next.1 h
    have hc : s.mem.count ≤ m.count ∧ m.count ≤ s.mem.count + 1 := by
      rcases memAlloc_cases s.params.storeCapacity s.mem (s.reg c) with ⟨-, e⟩ | ⟨-, ⟨g, rest, -, e⟩ | ⟨-, -, e⟩⟩ <;>
        rw [e] at hm <;> cases hm <;> simp [Memory.count, Memory.put]
    exact .of_mem _ s m _ (by simp) (by simp) (fun hw => memAlloc_wf hw hm) hc
  | abandon c =>
    simp only [exec, execAbandon] at h
    obtain ⟨m, hm, rfl⟩ := outcome_map_next.1 h
    have hc : m.count = s.mem.count := by
      rcases memFree_cases s.mem (s.reg c) with ⟨-, e⟩ | ⟨-, -, e⟩ | ⟨-, -, e⟩ <;> rw [e] at hm <;> cases hm
      simp [Memory.count, Memory.put]
    exact .of_mem _ s m s.regs (by simp) (by simp) (fun hw => memFree_wf hw hm) (by omega)
  | output c =>
    simp only [exec, execOutput, Host.Outcome.next.injEq] at h; subst h
    exact ⟨rfl, rfl, rfl, rfl, rfl, rfl, rfl, by simp, .inr ⟨by simp, rfl⟩, id, le_refl _, Nat.le_succ _⟩
  | input c => exact absurd rfl (hi c)
  | loadprog b c =>
    simp only [exec, execLoadprog] at h
    split_ifs at h with hb
    · cases h
      exact ⟨rfl, rfl, rfl, rfl, rfl, rfl, rfl, by simp, .inl ⟨b, c, rfl, rfl⟩, id, le_refl _, Nat.le_succ _⟩
    · obtain ⟨m, hm, rfl⟩ := outcome_map_next.1 h
      have hc : m.count = s.mem.count := by
        rcases memCopyToZero_cases s.mem (s.reg b) with ⟨-, e⟩ | ⟨a, -, e⟩ <;> rw [e] at hm <;> cases hm
        simp
      exact ⟨rfl, rfl, rfl, rfl, rfl, rfl, rfl, by simp, .inl ⟨b, c, rfl, rfl⟩, fun hw => memCopyToZero_wf hw hm,
        le_of_eq hc.symm, by simp [State.arrayCount, hc]⟩
  | ortho d imm =>
    simp only [exec, execOrtho, Host.Outcome.next.injEq] at h; subst h
    exact .of_regs _ s _ (by simp) (by simp)
  | nop14 =>
    simp only [exec, execNop14, Host.Outcome.next.injEq] at h; subst h
    exact .of_regs _ s s.regs (by simp) (by simp)
  | nop15 =>
    simp only [exec, execNop15, Host.Outcome.next.injEq] at h; subst h
    exact .of_regs _ s s.regs (by simp) (by simp)

end Sys2Proof.Machine
end

