-- ==== Sys2Proof/Laws/Input.lean ====
section
/-! SUPPORT. The input wait: what one event, one poll and one command can do to the machine, each said once. -/

namespace Sys2Proof.Machine

/-! ### Views of memory after one array is replaced -/

theorem State.wordAt_put {s : State} {h : Nat} {a : WordArray} (hl : h < s.mem.count) (g i : Nat) :
    ({ s with mem := s.mem.put h (some a) } : State).wordAt g i =
      if h = g then (if i < a.len then some (a.read i) else none) else s.wordAt g i := by
  simp only [State.wordAt, Memory.lookup_put _ _ _ _ hl]
  by_cases e : h = g <;> simp [e]

theorem State.lenAt_put {s : State} {h : Nat} {a : Option WordArray} (hl : h < s.mem.count) (g : Nat) :
    ({ s with mem := s.mem.put h a } : State).lenAt g = if h = g then a.map WordArray.len else s.lenAt g := by
  simp only [State.lenAt, Memory.lookup_put _ _ _ _ hl]
  split_ifs <;> rfl

/-! ### Files -/

/-- A stored blob is found at its path, and the other paths keep theirs. -/
theorem fileLookup_fileStore (fs : List (Path × Blob)) (p q : Path) (b : Blob) :
    fileLookup (fileStore fs p b) q = if p = q then some b else fileLookup fs q := by
  induction fs with
  | nil => simp [fileStore, fileLookup]
  | cons x fs ih =>
    obtain ⟨k, v⟩ := x
    unfold fileStore
    by_cases h : k = p
    · subst h; by_cases h2 : k = q <;> simp [fileLookup, h2]
    · simp only [h, if_false, fileLookup]
      by_cases h2 : k = q
      · subst h2; simp [Ne.symm h]
      · simp [h2, ih]

/-! ### Events -/

/-- A script's first event is the one a poll consumes. -/
theorem State.nextEvent_script {s : State} {e : EnvEvent} {rest : List EnvEvent} (h : s.script = e :: rest) :
    s.nextEvent = (e, { s with script := rest }) := by
  simp [State.nextEvent, h]

theorem State.poll_answer {s : State} {c : Reg} {a : Answer} (h : s.nextEvent.1 = .answer a) :
    s.poll c = s.nextEvent.2.completeInput c a := by
  simp [State.poll, h, State.applyEvent]

theorem State.poll_nothing {s : State} {c : Reg} (h : s.nextEvent.1 = .nothing) : s.poll c = s.nextEvent.2 := by
  simp [State.poll, h, State.applyEvent]

/-- An arriving command goes to the end of the queue, or nowhere; nothing else changes. -/
theorem State.enqueue_frame (s : State) (cmd : Command) :
    ∃ q, s.enqueue cmd = { s with queue := q } ∧ (q = s.queue ∨ q = s.queue ++ [cmd]) ∧
      (s.params.hostCommands = false → q = s.queue) := by
  unfold State.enqueue
  split_ifs with h
  · exact ⟨_, rfl, .inr rfl, fun h' => by rw [h'] at h; cases h⟩
  · exact ⟨_, rfl, .inl rfl, fun _ => rfl⟩

/-- What serving a command leaves as it was, whatever the command. -/
theorem State.serveEvent_frame (s : State) (ok : Bool) :
    (s.serveEvent ok).params = s.params ∧ (s.serveEvent ok).script = s.script ∧ (s.serveEvent ok).phase = s.phase ∧
    (s.serveEvent ok).output = s.output ∧ (s.serveEvent ok).report = s.report ∧
    ((s.serveEvent ok).queue = s.queue ∨ ∃ cmd, s.queue = cmd :: (s.serveEvent ok).queue) ∧
    (s.params.hostCommands = false → s.serveEvent ok = s) := by
  rcases s.serveEvent_cases ok with h | ⟨cmd, rest, hp, hq, h⟩
  · rw [h]; simp
  · have hf : s.params.hostCommands = false → s.serveEvent ok = s := fun h' => by rw [hp] at h'; cases h'
    rcases h with ⟨-, h⟩ | ⟨p, rfl, h⟩ | ⟨p, rfl, h⟩
    · rw [h] at hf ⊢; exact ⟨rfl, rfl, rfl, rfl, rfl, .inr ⟨_, hq⟩, hf⟩
    · rw [h] at hf ⊢; exact ⟨rfl, rfl, rfl, rfl, rfl, .inr ⟨_, hq⟩, hf⟩
    · rcases State.load_cases ({ s with queue := rest } : State) p with h' | ⟨m, -, -, h'⟩ <;>
        rw [h, h'] at hf ⊢ <;> exact ⟨rfl, rfl, rfl, rfl, rfl, .inr ⟨_, hq⟩, hf⟩

/-- Serving a command keeps the store's invariants and the finger below 2^32. -/
theorem State.serveEvent_wf {s : State} {ok : Bool} (h : s.mem.wf) (hpc : s.pc < 2 ^ 32) :
    (s.serveEvent ok).mem.wf ∧ (s.serveEvent ok).pc < 2 ^ 32 := by
  rcases s.serveEvent_cases ok with e | ⟨cmd, rest, hp, hq, e⟩
  · rw [e]; exact ⟨h, hpc⟩
  · rcases e with ⟨-, e⟩ | ⟨p, rfl, e⟩ | ⟨p, rfl, e⟩
    · rw [e]; exact ⟨h, hpc⟩
    · rw [e]; exact ⟨h, hpc⟩
    · rcases State.load_cases ({ s with queue := rest } : State) p with h' | ⟨m, -, hm, h'⟩
      · rw [e, h']; exact ⟨h, hpc⟩
      · rw [e, h']; exact hm

/-- Consuming the event of an IN's own poll is consuming the event of the state that executes it. -/
theorem State.nextEvent_beginInput (s : State) (c : Reg) :
    (s.beginInput c).nextEvent = (s.nextEvent.1, s.nextEvent.2.beginInput c) := by
  obtain ⟨_, _, _, _, _, _, _, _, _, _, ⟨_, _, model, _⟩, script, _⟩ := s
  cases script <;> cases model <;> rfl

/-- The fetch consumes no event. -/
theorem State.nextEvent_afterFetch (s : State) :
    s.afterFetch.nextEvent = (s.nextEvent.1, s.nextEvent.2.afterFetch) := by
  obtain ⟨_, _, _, _, _, _, _, _, _, _, ⟨_, _, model, _⟩, script, _⟩ := s
  cases script <;> cases model <;> rfl

/-! ### Polls -/

/-- An IN's own poll that leaves it waiting, and the same poll of a wait begun, answer the same next state. -/
theorem exec_input_eq_step {s t : State} {c : Reg} (h : (s.nextEvent.2.beginInput c).applyEvent c s.nextEvent.1 = t)
    (ht : t.phase = .waitingInput c) :
    exec (.input c) s = .next t ∧ (s.phase = .waitingInput c → step s = .next t) := by
  have hp : (s.beginInput c).poll c = t := by rw [State.poll, s.nextEvent_beginInput c]; exact h
  refine ⟨by simp only [exec, execInput, hp], fun hw => ?_⟩
  have hs : s.beginInput c = s := by unfold State.beginInput; rw [← hw]
  rw [hs] at hp
  rw [step_waiting hw, hp, State.retire_waiting _ ht]


/-- A poll ends the wait exactly when the event is an answer. -/
theorem State.poll_phase (s : State) (c : Reg) (hp : s.phase = .waitingInput c) :
    ((∃ a, s.nextEvent.1 = .answer a) ∧ (s.poll c).phase = .running ∧ (s.poll c).halted = s.halted) ∨
    ((∀ a, s.nextEvent.1 ≠ .answer a) ∧ (s.poll c).phase = .waitingInput c) := by
  obtain ⟨sc, k, e⟩ := s.nextEvent_frame
  cases he : s.nextEvent.1 with
  | nothing => right; refine ⟨by simp, ?_⟩; rw [State.poll_nothing he, e]; exact hp
  | arrive cmd =>
    right; refine ⟨by simp, ?_⟩
    obtain ⟨q, hq, -⟩ := s.nextEvent.2.enqueue_frame cmd
    simp only [State.poll, he, State.applyEvent]; rw [hq, e]; exact hp
  | serve ok =>
    right; refine ⟨by simp, ?_⟩
    simp only [State.poll, he, State.applyEvent]; rw [(State.serveEvent_frame _ _).2.2.1, e]; exact hp
  | answer a => left; refine ⟨⟨a, rfl⟩, ?_⟩; rw [State.poll_answer he, e]; exact ⟨rfl, rfl⟩

/-- A poll keeps the store's invariants and the finger below 2^32, a Load included. -/
theorem State.poll_wf {s : State} (c : Reg) (h : s.mem.wf) (hpc : s.pc < 2 ^ 32) :
    (s.poll c).mem.wf ∧ (s.poll c).pc < 2 ^ 32 := by
  obtain ⟨sc, k, e⟩ := s.nextEvent_frame
  unfold State.poll
  cases s.nextEvent.1 with
  | nothing => rw [e]; exact ⟨h, hpc⟩
  | arrive cmd =>
    obtain ⟨q, hq, -⟩ := s.nextEvent.2.enqueue_frame cmd
    simp only [State.applyEvent]; rw [hq, e]; exact ⟨h, hpc⟩
  | serve ok => simp only [State.applyEvent]; apply State.serveEvent_wf <;> rw [e] <;> assumption
  | answer a => rw [e]; exact ⟨h, hpc⟩

/-- A served command that is no Load taking effect leaves the store, the finger, the flag and the count. -/
theorem State.serveEvent_keeps {s : State} {ok : Bool}
    (h : ¬ (ok = true ∧ s.params.hostCommands = true ∧
      ∃ p q m, s.queue = .load p :: q ∧ s.blobAt p = .snapshot m ∧ m.wf)) :
    (s.serveEvent ok).mem = s.mem ∧ (s.serveEvent ok).pc = s.pc ∧ (s.serveEvent ok).halted = s.halted ∧
    (s.serveEvent ok).count = s.count := by
  unfold State.serveEvent
  split_ifs with hp
  · unfold State.serve
    cases hq : s.queue with
    | nil => exact ⟨rfl, rfl, rfl, rfl⟩
    | cons cmd q =>
      cases ok with
      | false => exact ⟨rfl, rfl, rfl, rfl⟩
      | true =>
        cases cmd with
        | save p => exact ⟨rfl, rfl, rfl, rfl⟩
        | load p =>
          show (State.load _ p).mem = _ ∧ (State.load _ p).pc = _ ∧ (State.load _ p).halted = _ ∧
            (State.load _ p).count = _
          rcases State.load_cases ({ s with queue := q } : State) p with e | ⟨m, hb, hm, -⟩
          · rw [e]; exact ⟨rfl, rfl, rfl, rfl⟩
          · exact absurd ⟨rfl, hp, p, q, m, hq, hb, hm⟩ h
  · exact ⟨rfl, rfl, rfl, rfl⟩

/-- A poll at which no Load takes effect leaves the store, the finger, the flag and the count. -/
theorem State.poll_keeps {s : State} (c : Reg)
    (h : ¬ (s.nextEvent.1 = .serve true ∧ s.params.hostCommands = true ∧
      ∃ p q m, s.queue = .load p :: q ∧ s.nextEvent.2.blobAt p = .snapshot m ∧ m.wf)) :
    (s.poll c).mem = s.mem ∧ (s.poll c).pc = s.pc ∧ (s.poll c).halted = s.halted ∧ (s.poll c).count = s.count := by
  obtain ⟨sc, k, e⟩ := s.nextEvent_frame
  unfold State.poll
  cases he : s.nextEvent.1 with
  | nothing => rw [e]; exact ⟨rfl, rfl, rfl, rfl⟩
  | arrive cmd =>
    obtain ⟨q, hq, -⟩ := s.nextEvent.2.enqueue_frame cmd
    simp only [State.applyEvent]; rw [hq, e]; exact ⟨rfl, rfl, rfl, rfl⟩
  | serve ok =>
    rw [he] at h
    have := State.serveEvent_keeps (s := s.nextEvent.2) (ok := ok) (by
      rw [e] at h ⊢
      rintro ⟨rfl, h2, p, q, m, h3⟩
      exact h ⟨rfl, h2, p, q, m, h3⟩)
    simp only [State.applyEvent]
    rw [e] at this ⊢; exact this
  | answer a => rw [e]; exact ⟨rfl, rfl, rfl, rfl⟩

/-- Unless a Load takes effect, a poll of a wait begun leaves the store, the finger, the flag and the count. -/
theorem State.poll_keeps_waiting {s : State} {c : Reg} (hw : s.phase = .waitingInput c) (h : ¬ s.LoadsNow) :
    (s.poll c).mem = s.mem ∧ (s.poll c).pc = s.pc ∧ (s.poll c).halted = s.halted ∧ (s.poll c).count = s.count :=
  State.poll_keeps c fun k => h ⟨⟨c, .inl hw⟩, k⟩

/-- The same of the poll in the IN's own step. -/
theorem State.poll_keeps_running {s : State} {w : Word} {c : Reg} (hp : s.phase = .running)
    (hf : s.wordAt 0 s.pc = some w) (hd : decode w = .input c) (h : ¬ s.LoadsNow) :
    ((s.afterFetch.beginInput c).poll c).mem = s.mem ∧ ((s.afterFetch.beginInput c).poll c).pc = s.pc + 1 ∧
    ((s.afterFetch.beginInput c).poll c).halted = s.halted ∧ ((s.afterFetch.beginInput c).poll c).count = s.count :=
  State.poll_keeps (s := s.afterFetch.beginInput c) c (by
    rw [State.nextEvent_beginInput, State.nextEvent_afterFetch]
    exact fun k => h ⟨⟨c, .inr ⟨hp, w, hf, hd⟩⟩, k⟩)

end Sys2Proof.Machine
end

