-- ==== Sys2Proof/Laws/PerInstr.lean ====
section
/-! SUPPORT. Statements about every instruction as syntax, one lemma per constructor (LAWS.json). -/

namespace Sys2Proof.Laws.OperatorField

/-- The operator field of an instruction's word is the operator value spec/30_encoding.md R63 gives it: the word matches
its row of the opcode table (mask `0xF0000000`) and no other row. -/
def Statement (i : Instr) : Prop := opField (encode i) = i.operator

theorem of_standard {op : Nat} (hop : op < 16) (a b c : Reg) : opField (standardWord op a b c) = op := by
  rw [opField_eq, toNat_standardWord hop]; omega

theorem cmov (a b c : Reg) : Statement (.cmov a b c) := of_standard (by decide) a b c

theorem index (a b c : Reg) : Statement (.index a b c) := of_standard (by decide) a b c

theorem amend (a b c : Reg) : Statement (.amend a b c) := of_standard (by decide) a b c

theorem add (a b c : Reg) : Statement (.add a b c) := of_standard (by decide) a b c

theorem mul (a b c : Reg) : Statement (.mul a b c) := of_standard (by decide) a b c

theorem div (a b c : Reg) : Statement (.div a b c) := of_standard (by decide) a b c

theorem nand (a b c : Reg) : Statement (.nand a b c) := of_standard (by decide) a b c

theorem halt : Statement .halt := of_standard (by decide) 0 0 0

theorem alloc (b c : Reg) : Statement (.alloc b c) := of_standard (by decide) 0 b c

theorem abandon (c : Reg) : Statement (.abandon c) := of_standard (by decide) 0 0 c

theorem output (c : Reg) : Statement (.output c) := of_standard (by decide) 0 0 c

theorem input (c : Reg) : Statement (.input c) := of_standard (by decide) 0 0 c

theorem loadprog (b c : Reg) : Statement (.loadprog b c) := of_standard (by decide) 0 b c

theorem ortho (s : Reg) (imm : Word) : Statement (.ortho s imm) := by
  have h : imm.toNat % immBound < 2 ^ 25 := Nat.mod_lt _ (by decide)
  simp only [Statement, encode, Instr.operator]
  rw [opField_eq, toNat_specialWord s h]; omega

theorem nop14 : Statement .nop14 := of_standard (by decide) 0 0 0

theorem nop15 : Statement .nop15 := of_standard (by decide) 0 0 0

end Sys2Proof.Laws.OperatorField
end

