-- ==== Sys2Proof/Tests/Slice0.lean ====
section
/-! SUPPORT. Tests with results from spec/95_test_vectors.md, the canonical words of spec/opcode_table.json, and one
witness for the hypotheses of every statement that has some. -/

namespace Sys2Proof.Tests

open Sys2Proof.Machine

/-! ### Helpers -/

/-- The reset machine with an image and some registers set. -/
def machine (words : List Word) (regs : List (Reg × Word)) : State :=
  regs.foldl (fun s p => s.setReg p.1 p.2) (State.reset.loadImage words)

/-- The machine with further handles minted: each a live array of these words, or freed; and the free-handle stack. -/
def withArrays (s : State) (arrays : List (Option (List Word))) (free : List Nat) : State :=
  { s with mem := { arrays := s.mem.arrays ++ arrays.map (·.map WordArray.ofWords), free := free } }

/-- A view of the next state, `none` where there is none. -/
def onNext {α : Type} (o : Host.Outcome State Fault Refusal) (f : State → α) : Option α :=
  match o with
  | .next t => some (f t)
  | _ => none

/-- The fault answered, if any. -/
def faultOf (o : Host.Outcome State Fault Refusal) : Option Fault :=
  match o with
  | .fault f => some f
  | _ => none

/-- The words of an array, one by one. -/
def wordsOf (s : State) (h n : Nat) : List (Option Word) := (List.range n).map (s.wordAt h)

/-! ### Well-formedness -/

/-- The one check: an immediate of 26 bits is refused, the largest of 25 bits is not. -/
theorem test_wf_refuses_wide_immediate :
    (Instr.ortho 3 0x2000000).wf = false ∧ (Instr.ortho 3 0x1FFFFFF).wf = true := by decide

/-! ### Decoding: the canonical examples of spec/opcode_table.json, and ignored bits (spec/95 part 2) -/

theorem test_decode_data_and_arrays :
    decode 0x00000053 = .cmov 1 2 3 ∧ decode 0xD6000048 = .ortho 3 0x48 ∧ decode 0xDFFFFFFF = .ortho 7 0x1FFFFFF ∧
    decode 0x1000010A = .index 4 1 2 ∧ decode 0x20000053 = .amend 1 2 3 := by decide

theorem test_decode_arithmetic :
    decode 0x30000053 = .add 1 2 3 ∧ decode 0x4000009C = .mul 2 3 4 ∧ decode 0x50000177 = .div 5 6 7 ∧
    decode 0x600001FF = .nand 7 7 7 := by decide

theorem test_decode_management_io_control :
    decode 0x8000001C = .alloc 3 4 ∧ decode 0x90000005 = .abandon 5 ∧ decode 0xA0000006 = .output 6 ∧
    decode 0xB0000007 = .input 7 ∧ decode 0x70000000 = .halt ∧ decode 0xC0000011 = .loadprog 2 1 ∧
    decode 0xE0000000 = .nop14 ∧ decode 0xF0000000 = .nop15 := by decide

/-- "`0x3FFFFE53` has every ignored bit set and executes exactly as `0x30000053`"; "`0x7ABCDEF8` executes as HALT". -/
theorem test_decode_ignores_unused_bits :
    decode 0x3FFFFE53 = .add 1 2 3 ∧ decode 0x7ABCDEF8 = .halt ∧ decode 0xE0000123 = .nop14 := by decide

theorem test_encode_canonical :
    encode (.mul 2 3 4) = 0x4000009C ∧ encode (.alloc 3 4) = 0x8000001C ∧ encode (.loadprog 2 1) = 0xC0000011 ∧
    encode (.ortho 3 0x48) = 0xD6000048 := by decide

/-- The table's numbering: bit 0 is the word's least significant bit, so the word itself is the number. -/
theorem test_decodeTableWord :
    decodeTableWord 32 0x600001FF = some (.nand 7 7 7) ∧ decodeTableWord 32 0xD6000048 = some (.ortho 3 0x48) := by
  decide

theorem test_short_bytes_refused_by_name : decodeBytes [0xD0, 0x00, 0x00] = .error .shortWord := by decide

/-- P1's first eight image bytes. -/
theorem test_image_is_big_endian :
    imageWords [0xD0, 0x00, 0x00, 0x48, 0xA0, 0x00, 0x00, 0x00] = some [0xD0000048, 0xA0000000] := by decide

/-! ### Data movement and arrays -/

/-- Any non-zero value is true. -/
theorem test_cmov_any_nonzero :
    onNext (step (machine [0x00000053] [(1, 0x11), (2, 0x22), (3, 0x80000000)])) (·.reg 1) = some 0x22 := by decide

theorem test_cmov_zero :
    onNext (step (machine [0x00000053] [(1, 0x11), (2, 0x22)])) (·.reg 1) = some 0x11 := by decide

/-- Zero-extended, not `0xFFFFFFFF`. -/
theorem test_ortho_zero_extends : onNext (step (machine [0xDFFFFFFF] [])) (·.reg 7) = some 0x01FFFFFF := by decide

/-- S3: all registers `DEADBEEF`, one of them set. -/
theorem test_ortho_sets_exactly_one :
    onNext (step { machine [0xD6000048] [] with regs := Vector.replicate 8 0xDEADBEEF }) (·.regs) =
      some #v[0xDEADBEEF, 0xDEADBEEF, 0xDEADBEEF, 0x48, 0xDEADBEEF, 0xDEADBEEF, 0xDEADBEEF, 0xDEADBEEF] := by decide

/-- Array 1 live with contents `[0, 0, 01ABCDEF]`. -/
def arrayOne (word : Word) (regs : List (Reg × Word)) : State :=
  withArrays (machine [word] regs) [some [0, 0, 0x01ABCDEF]] []

theorem test_index_reads : onNext (step (arrayOne 0x1000010A [(1, 1), (2, 2)])) (·.reg 4) = some 0x01ABCDEF := by decide

/-- The index equal to the length, and a handle never minted. -/
theorem test_index_faults :
    faultOf (step (arrayOne 0x1000010A [(1, 1), (2, 3)])) = some (.index 1 3) ∧
    faultOf (step (arrayOne 0x1000010A [(1, 9)])) = some (.handle 9) := by decide

theorem test_amend_writes_one_word :
    onNext (step (arrayOne 0x20000053 [(1, 1), (2, 1), (3, 0xCAFEF00D)])) (fun t => wordsOf t 1 4) =
      some [some 0, some 0xCAFEF00D, some 0x01ABCDEF, none] := by decide

/-- a = b = c: word 0 of the program overwritten. -/
theorem test_amend_program :
    onNext (step (machine [0x20000049] [])) (fun t => wordsOf t 0 2) = some [some 0, none] := by decide

/-! ### Arithmetic -/

/-- S1, and the same register as source and destination. -/
theorem test_add_wraps :
    onNext (step (machine [0x30000053] [(2, 0xFFFFFFFF), (3, 1)])) (·.reg 1) = some 0 ∧
    onNext (step (machine [0x30000049] [(1, 0x80000001)])) (·.reg 1) = some 2 := by decide

theorem test_mul_low_word :
    onNext (step (machine [0x40000053] [(2, 0x12345678), (3, 0x9ABCDEF0)])) (·.reg 1) = some 0x242D2080 := by decide

/-- Unsigned; a signed divide would overflow, or give 0. -/
theorem test_div_unsigned :
    onNext (step (machine [0x50000053] [(2, 0x80000000), (3, 0xFFFFFFFF)])) (·.reg 1) = some 0 ∧
    onNext (step (machine [0x50000053] [(2, 0xFFFFFFFF), (3, 2)])) (·.reg 1) = some 0x7FFFFFFF := by decide

theorem test_div_by_zero : faultOf (step (machine [0x50000053] [(2, 7)])) = some .div0 := by decide

theorem test_nand_bitwise :
    onNext (step (machine [0x60000053] [(2, 0xF0F0F0F0), (3, 0xFF00FF00)])) (·.reg 1) = some 0x0FFF0FFF := by decide

/-! ### Array management -/

/-- b = c: the length is read before the handle is written. -/
theorem test_alloc_fresh :
    onNext (step (machine [0x80000009] [(1, 4)])) (fun t => (t.reg 1, t.arrayCount, wordsOf t 1 5)) =
      some (1, 2, [some 0, some 0, some 0, some 0, none]) := by decide

/-- The most recently freed handle; old contents and length gone. -/
theorem test_alloc_reuses :
    onNext (step (withArrays (machine [0x8000003A] [(2, 2)]) [none, some [5]] [1]))
      (fun t => (t.reg 7, t.mem.free, wordsOf t 1 3)) = some (1, [], [some 0, some 0, none]) := by decide

theorem test_abandon_frees :
    onNext (step (withArrays (machine [0x90000001] [(1, 1)]) [some [7], some [8]] []))
      (fun t => (t.reg 1, t.mem.free, t.lenAt 1, t.lenAt 2)) = some (1, [1], none, some 1) := by decide

theorem test_abandon_faults :
    faultOf (step (machine [0x90000000] [])) = some .free0 ∧
    faultOf (step (withArrays (machine [0x90000002] [(2, 1)]) [none] [1])) = some (.freeDead 1) ∧
    faultOf (step (withArrays (machine [0x90000002] [(2, 7)]) [some []] [])) = some (.freeDead 7) := by decide

/-! ### Input and output -/

theorem test_out_low_byte : onNext (step (machine [0xA0000000] [(0, 0x148)])) (·.output) = some [0x48] := by decide

/-- A byte `FF` is not the end-of-stream word. -/
theorem test_in_byte :
    onNext (step { machine [0xB0000007] [] with script := [.answer (.byte 0xFF)] })
      (fun t => (t.reg 7, t.pc, t.count, t.phase)) = some (0xFF, 1, 1, .running) := by decide

/-- End of stream once a finite input is used up; and, above it, an input that does not answer. -/
theorem test_in_eof_and_wait :
    onNext (step { machine [0xB0000007] [] with params := { Config.defaultParams with inputModel := .finite } })
      (·.reg 7) = some 0xFFFFFFFF ∧
    onNext (step { machine [0xB0000007] [] with script := [.nothing] }) (fun t => (t.pc, t.count, t.phase)) =
      some (1, 0, .waitingInput 7) := by decide

/-! ### Control -/

theorem test_halt :
    onNext (step { machine [0, 0, 0, 0, 0x70000000] [] with pc := 4, count := 4 })
      (fun t => (t.halted, t.pc, t.count, t.phase, t.report)) = some (true, 5, 5, .halted, some 5) := by decide

/-- A jump alone, to an index past the end: array 0 unchanged, and the next fetch faults. -/
theorem test_loadprog_jump :
    onNext (step (machine [0xC0000001, 0] [(1, 100)])) (fun t => (t.pc, t.lenAt 0, faultOf (step t))) =
      some (100, some 2, some (.fetch 100)) := by decide

/-- P4's step 19. -/
theorem test_loadprog_copies :
    onNext (step (withArrays (machine [0xC000000E] [(1, 1)]) [some [0xB0000001, 0xA0000001, 0x70000000]] []))
      (fun t => (t.pc, wordsOf t 0 4, t.lenAt 1)) =
      some (0, [some 0xB0000001, some 0xA0000001, some 0x70000000, none], some 3) := by decide

theorem test_nop14 :
    onNext (step (machine [0xE0000123] [])) (fun t => { t with pc := 0, count := 0 }) = some (machine [0xE0000123] []) := by
  decide

theorem test_nop15 : onNext (step (machine [0xF0000000] [])) (fun t => (t.pc, t.count)) = some (1, 1) := by decide

/-! ### Host commands: the vectors H1 to H3 -/

/-- The Machine State H1 stores: `r1=00000007`, the rest at reset, `pc=2`, `count=1`. -/
def blobOfH1 : Snapshot :=
  { (machine [0xD2000007, 0xB0000002, 0xA0000002, 0x70000000] [(1, 7)]).snapshot with pc := 2, count := 1 }

/-- H1: machine A fetches its IN and the Save is applied in the wait. -/
theorem test_h1_save_in_the_wait :
    onNext (step { machine [0xD2000007, 0xB0000002, 0xA0000002, 0x70000000] [(1, 7)] with
        pc := 1, count := 1, script := [.serve true], queue := [.save "p"] })
      (fun t => (t.phase, fileLookup t.files "p")) = some (.waitingInput 2, some (.snapshot blobOfH1)) := by decide

/-- Machine B of H2, waiting in its own IN r5, with a Load queued. -/
def machineB (b : Blob) : State :=
  { machine [0xB0000005, 0x70000000] [] with
    pc := 1, phase := .waitingInput 5, script := [.serve true, .answer (.byte 0x79)],
    queue := [.load "p"], files := [("p", b)] }

/-- H2: the loaded state, the byte in register 5, the loaded counter incremented. -/
theorem test_h2_load_in_the_wait :
    onNext (core.run 2 (machineB (.snapshot blobOfH1))) (fun t => (t.reg 1, t.reg 5, t.pc, t.count, t.lenAt 0)) =
      some (7, 0x79, 2, 2, some 4) := by decide

/-- H3: an unreadable blob changes nothing. -/
theorem test_h3_unreadable_blob :
    onNext (core.run 2 (machineB .unreadable)) (fun t => (t.reg 1, t.reg 5, t.pc, t.count, t.lenAt 0)) =
      some (0, 0x79, 1, 1, some 2) := by decide

/-! ### Reset, boot, fetch -/

/-- F3: an empty image faults at the first fetch, with nothing counted. -/
theorem test_f3_empty_image :
    faultOf (step State.reset) = some (.fetch 0) ∧ State.reset.advance.phase = .faulted (.fetch 0) ∧
    State.reset.advance.pc = 0 := by decide

/-- The image of P1 boots; its first step loads `H`. -/
theorem test_boot_p1 :
    (onNext (boot Config.defaultParams [0xD0, 0x00, 0x00, 0x48, 0xA0, 0x00, 0x00, 0x00]) fun t =>
      (t.lenAt 0, onNext (step t) (·.reg 0))) = some (some 2, some 0x48) := by decide

/-- The host's question: the very next step runs the placed word. -/
theorem test_withFetchWord : onNext (step (State.reset.withFetchWord 32 0xD6000048)) (·.reg 3) = some 0x48 := by decide

/-- One capacity less than an allocation needs. -/
theorem test_alloc_over_capacity :
    faultOf (step { machine [0x80000008] [(0, 3)] with params := { Config.defaultParams with storeCapacity := some 3 } }) =
      some (.alloc 3) := by decide

/-- The machine waiting in IN for register 7, with the coming events and the commands queued. -/
def waiting (script : List EnvEvent) (queue : List Command) : State :=
  { machine [0xB0000007, 0x70000000] [] with pc := 1, phase := .waitingInput 7, script := script, queue := queue }

/-- The machine about to execute IN for register 7, a Save queued that its own poll applies. -/
def saving : State := { machine [0xB0000007, 0x70000000] [] with script := [.serve true], queue := [.save "p"] }

/-- Every image of one word is fetched by the running machine that holds it. -/
theorem machine_fetches (w : Word) : (machine [w] []).phase = .running ∧ (machine [w] []).halted = false ∧
    (machine [w] []).wordAt 0 (machine [w] []).pc = some w := by
  refine ⟨rfl, rfl, ?_⟩
  show (if 0 < 1 then some ((WordArray.ofWords [w]).read 0) else none) = some w
  rw [WordArray.read_ofWords]; rfl

/-! ### Witnesses: for every statement with hypotheses, a concrete case that meets all of them -/

theorem witness_DecodeInvertsEncode : (Instr.ortho 3 0x1FFFFFF).wf = true ∧ (Instr.halt).wf = true := by decide

/-- The five field hypotheses together, at a word whose fields all differ; and each operator value has a word. -/
theorem witness_DecodeReadsTheFields :
    ((4 : Reg) : Nat) = (0x1000010A : Word).toNat / 2 ^ 6 % 8 ∧ ((1 : Reg) : Nat) = (0x1000010A : Word).toNat / 2 ^ 3 % 8 ∧
    ((2 : Reg) : Nat) = (0x1000010A : Word).toNat % 8 ∧ ((0 : Reg) : Nat) = (0x1000010A : Word).toNat / 2 ^ 25 % 8 ∧
    (0x10A : Word).toNat = (0x1000010A : Word).toNat % 2 ^ 25 ∧
    ∀ op < 16, (BitVec.ofNat 32 (op * 2 ^ 28)).toNat / 2 ^ 28 = op := by decide

/-- At the largest difference: every ignored bit of ADD set, and none. -/
theorem witness_IgnoredBitsChangeNothing :
    (0x3FFFFE53 : Word).toNat / 2 ^ 28 = (0x30000053 : Word).toNat / 2 ^ 28 ∧
    (0x3FFFFE53 : Word).toNat % usedFieldsBound ((0x3FFFFE53 : Word).toNat / 2 ^ 28) =
      (0x30000053 : Word).toNat % usedFieldsBound ((0x3FFFFE53 : Word).toNat / 2 ^ 28) := by decide

/-- The first and the last of the undefined words. -/
theorem witness_UndefinedOperatorsAreCountedNops :
    (0xE0000000 ≤ (0xE0000000 : Word).toNat ∧ (machine [0xE0000000] []).phase = .running ∧
      (machine [0xE0000000] []).halted = false ∧
      (machine [0xE0000000] []).wordAt 0 (machine [0xE0000000] []).pc = some 0xE0000000) ∧
    (0xE0000000 ≤ (0xFFFFFFFF : Word).toNat ∧ (machine [0xFFFFFFFF] []).phase = .running ∧
      (machine [0xFFFFFFFF] []).halted = false ∧
      (machine [0xFFFFFFFF] []).wordAt 0 (machine [0xFFFFFFFF] []).pc = some 0xFFFFFFFF) :=
  ⟨⟨by decide, machine_fetches _⟩, by decide, machine_fetches _⟩

theorem witness_ImageBytesAreBigEndian :
    imageWords [0xD0, 0, 0, 0x48] = some [0xD0000048] ∧ 0 < ([0xD0000048] : List Word).length ∧
    (arrayOne 0 []).mem.wf ∧ ∃ m, memWrite (arrayOne 0 []).mem 1 2 0xCAFEF00D = .ok m :=
  ⟨by decide, by decide, by decide, _, rfl⟩

/-- Parameters with an image limit of n words. -/
def limit (n : Nat) : Params := { Config.defaultParams with imageMaxWords := n }

/-- A length that is no multiple of 4; an image one word above the limit, and one at it. -/
theorem witness_BootLoadsTheImage :
    ([1, 2, 3, 4, 5] : List Byte).length % 4 ≠ 0 ∧ imageWords [0xD0, 0, 0, 0x48] = some [0xD0000048] ∧
    (limit 0).imageMaxWords < 1 ∧ 1 ≤ (limit 1).imageMaxWords ∧ (limit 1).imageMaxWords < 2 ^ 32 ∧
    ([0xD0000048] : List Word)[0]? = some 0xD0000048 := by decide

theorem witness_FirstInstructionIsWordZero :
    (imageWords [0xD0, 0, 0, 0x48] = some [0xD0000048] ∧ ∃ t, boot (limit 1) [0xD0, 0, 0, 0x48] = .next t) ∧
    (imageWords [] = some [] ∧ ∃ t, boot (limit 1) [] = .next t) :=
  ⟨⟨by decide, _, rfl⟩, by decide, _, rfl⟩

/-- A DIV by 0 that faults. -/
theorem witness_StepRunsTheDecodedInstruction_fault :
    (machine [0x50000053] []).phase = .running ∧ (machine [0x50000053] []).wordAt 0 0 = some 0x50000053 ∧
    decode 0x50000053 = .div 1 2 3 ∧ exec (.div 1 2 3) { machine [0x50000053] [] with pc := 1 } = .fault .div0 :=
  ⟨rfl, by decide, by decide, rfl⟩

/-- An ADD that completes. -/
theorem witness_StepRunsTheDecodedInstruction_next :
    (machine [0x30000053] []).phase = .running ∧ (machine [0x30000053] []).wordAt 0 0 = some 0x30000053 ∧
    decode 0x30000053 = .add 1 2 3 ∧
    ∃ u, exec (.add 1 2 3) { machine [0x30000053] [] with pc := 1 } = .next u ∧ ∀ c, u.phase ≠ .waitingInput c :=
  ⟨rfl, by decide, by decide, _, rfl, fun c h => by cases h⟩

/-- An IN that waits. -/
theorem witness_StepRunsTheDecodedInstruction_wait :
    (waiting [.nothing] []).wordAt 0 0 = some 0xB0000007 ∧ decode 0xB0000007 = .input 7 ∧
    { waiting [.nothing] [] with pc := 0, phase := .running }.phase = .running ∧
    ∃ u, exec (.input 7) { waiting [.nothing] [] with pc := 1, phase := .running } = .next u ∧
      u.phase = .waitingInput 7 := ⟨by decide, by decide, rfl, _, rfl, rfl⟩

/-- The finger at the length, and past it. -/
theorem witness_FetchPastTheEndFaults :
    (State.reset.phase = .running ∧ State.reset.lenAt 0 = some 0 ∧ 0 ≤ State.reset.pc) ∧
    ({ machine [0] [] with pc := 9 }.phase = .running ∧ { machine [0] [] with pc := 9 }.lenAt 0 = some 1 ∧
      1 ≤ { machine [0] [] with pc := 9 }.pc) := by decide

theorem witness_HaltedMachineStays :
    { State.reset with phase := .halted, halted := true }.phase = .halted ∧
    (machine [0x7ABCDEF8] []).phase = .running ∧ (machine [0x7ABCDEF8] []).wordAt 0 0 = some 0x7ABCDEF8 ∧
    decode 0x7ABCDEF8 = .halt := by decide

/-- A fault of the fetch and a fault of execute, from a running machine. -/
theorem witness_FaultedMachineStays :
    (step State.reset = .fault (.fetch 0) ∧ ∀ g, State.reset.phase ≠ .faulted g) ∧
    (step (machine [0x50000053] []) = .fault .div0 ∧ ∀ g, (machine [0x50000053] []).phase ≠ .faulted g) :=
  ⟨⟨rfl, fun g h => by cases h⟩, rfl, fun g h => by cases h⟩

theorem witness_CmovMovesWhenNonzero :
    (machine [] [(3, 0x80000000)]).reg 3 ≠ 0 ∧ (machine [] [(3, 0)]).reg 3 = 0 := by decide

/-- The largest immediate. -/
theorem witness_OrthoLoadsTheImmediate : (0x1FFFFFF : Word).toNat < 2 ^ 25 := by decide

/-- A handle never minted; the index equal to the length; the last index. -/
theorem witness_IndexReadsTheWordOrFaults :
    (arrayOne 0 [(1, 2)]).lenAt ((arrayOne 0 [(1, 2)]).reg 1).toNat = none ∧
    ((arrayOne 0 [(1, 1), (2, 3)]).lenAt ((arrayOne 0 [(1, 1), (2, 3)]).reg 1).toNat = some 3 ∧
      3 ≤ ((arrayOne 0 [(1, 1), (2, 3)]).reg 2).toNat) ∧
    ((arrayOne 0 [(1, 1), (2, 2)]).lenAt ((arrayOne 0 [(1, 1), (2, 2)]).reg 1).toNat = some 3 ∧
      ((arrayOne 0 [(1, 1), (2, 2)]).reg 2).toNat < 3) := by decide

/-- The same three cases, the store in canonical form. -/
theorem witness_AmendWritesOneWordOrFaults :
    ((arrayOne 0 [(1, 2)]).mem.wf ∧ (arrayOne 0 [(1, 2)]).lenAt ((arrayOne 0 [(1, 2)]).reg 1).toNat = none) ∧
    ((arrayOne 0 [(1, 1), (2, 3)]).mem.wf ∧
      (arrayOne 0 [(1, 1), (2, 3)]).lenAt ((arrayOne 0 [(1, 1), (2, 3)]).reg 1).toNat = some 3 ∧
      3 ≤ ((arrayOne 0 [(1, 1), (2, 3)]).reg 2).toNat) ∧
    ((arrayOne 0 [(1, 1), (2, 2)]).mem.wf ∧
      (arrayOne 0 [(1, 1), (2, 2)]).lenAt ((arrayOne 0 [(1, 1), (2, 2)]).reg 1).toNat = some 3 ∧
      ((arrayOne 0 [(1, 1), (2, 2)]).reg 2).toNat < 3) :=
  ⟨⟨by decide, by decide⟩, ⟨by decide, by decide⟩, by decide, by decide⟩

theorem witness_DivIsUnsignedFloorOrFaults :
    (machine [] [(3, 0)]).reg 3 = 0 ∧ (machine [] [(3, 1)]).reg 3 ≠ 0 := by decide

/-- A machine with a capacity: array 1 of three words is live, and there is room for `n` words in all. -/
def bounded (n : Nat) (regs : List (Reg × Word)) : State :=
  { withArrays (machine [] regs) [some [0, 0, 0]] [] with params := { Config.defaultParams with storeCapacity := some n } }

/-- The capacity one word short; the capacity just enough, no handle free; and a handle free, without a bound. -/
theorem witness_AllocReturnsAFreshZeroArray :
    ((bounded 4 [(0, 2)]).mem.wf ∧ (bounded 4 [(0, 2)]).params.storeCapacity = some 4 ∧
      4 < (bounded 4 [(0, 2)]).mem.liveWords + ((bounded 4 [(0, 2)]).reg 0).toNat) ∧
    ((bounded 5 [(0, 2)]).mem.wf ∧ (bounded 5 [(0, 2)]).params.storeCapacity = some 5 ∧
      (bounded 5 [(0, 2)]).mem.liveWords + ((bounded 5 [(0, 2)]).reg 0).toNat ≤ 5 ∧
      (bounded 5 [(0, 2)]).mem.free = [] ∧ (bounded 5 [(0, 2)]).arrayCount < 2 ^ 32) ∧
    ((withArrays (machine [] [(0, 2)]) [none] [1]).mem.wf ∧
      (withArrays (machine [] [(0, 2)]) [none] [1]).params.storeCapacity = none ∧
      (withArrays (machine [] [(0, 2)]) [none] [1]).mem.free = 1 :: []) :=
  ⟨⟨by decide, by decide⟩, ⟨by decide, by decide⟩, by decide, by decide⟩

/-- The store with n handles minted, all live, each array empty. -/
def allLive (n : Nat) : Memory := { arrays := List.replicate n (some (WordArray.zeros 0)), free := [] }

theorem allLive_lookup {n h : Nat} (hh : h < n) : (allLive n).lookup h = some (WordArray.zeros 0) := by
  simp [allLive, Memory.lookup, hh]

theorem allLive_wf {n : Nat} (h0 : 0 < n) (hn : n ≤ 2 ^ 32) : (allLive n).wf := by
  have hc : (allLive n).count = n := by simp [allLive, Memory.count]
  refine ⟨fun h hh a e => ?_, by rw [hc]; exact hn, ?_, List.nodup_nil, fun h hh => absurd hh (by simp [allLive]),
    fun h hh hl => ?_⟩
  · rw [hc] at hh; rw [allLive_lookup hh] at e; cases e; exact WordArray.wf_zeros (by decide)
  · simp [Memory.live, allLive_lookup h0]
  · rw [hc] at hh; simp [Memory.live, allLive_lookup hh] at hl

/-- No handle left: 2^32 minted and all live. -/
theorem witness_AllocReturnsAFreshZeroArray_no_handle :
    ({ State.reset with mem := allLive (2 ^ 32) } : State).mem.wf ∧
    ({ State.reset with mem := allLive (2 ^ 32) } : State).mem.free = [] ∧
    ({ State.reset with mem := allLive (2 ^ 32) } : State).arrayCount = 2 ^ 32 :=
  ⟨allLive_wf (by decide) (le_refl _), rfl, by simp only [State.arrayCount, Memory.count, allLive, List.length_replicate]⟩

/-- Handle 0; a handle already free; a live handle. -/
theorem witness_AbandonFreesTheArrayOrFaults :
    (machine [] [(2, 0)]).reg 2 = 0 ∧
    ((withArrays (machine [] [(2, 1)]) [none] [1]).reg 2 ≠ 0 ∧
      (withArrays (machine [] [(2, 1)]) [none] [1]).lenAt 1 = none) ∧
    ((arrayOne 0 [(2, 1)]).reg 2 ≠ 0 ∧ (arrayOne 0 [(2, 1)]).lenAt ((arrayOne 0 [(2, 1)]).reg 2).toNat ≠ none) := by decide

theorem witness_AllocAfterAbandonReusesTheHandle :
    (∃ t, exec (.abandon 2) (arrayOne 0 [(2, 1)]) = .next t) ∧ (arrayOne 0 [(2, 1)]).params.storeCapacity = none :=
  ⟨⟨_, rfl⟩, rfl⟩

theorem witness_UseAfterAbandonFaults :
    ∃ t, exec (.abandon 2) (arrayOne 0 [(2, 1)]) = .next t ∧ t.reg 2 = (arrayOne 0 [(2, 1)]).reg 2 := ⟨_, rfl, rfl⟩

/-- An IN that suspends. -/
theorem witness_InputWaitsForItsAnswer_suspends :
    { machine [] [] with script := [.nothing] }.phase = .running ∧
    ∃ t, exec (.input 7) { machine [] [] with script := [.nothing] } = .next t ∧ t.phase = .waitingInput 7 :=
  ⟨rfl, _, rfl, rfl⟩

/-- An answer of each kind, and no answer; the wait already begun. -/
theorem witness_InputWaitsForItsAnswer :
    ((waiting [.answer (.byte 0x5A)] []).nextEvent.1 = .answer (.byte 0x5A) ∧
      (waiting [.answer (.byte 0x5A)] []).phase = .waitingInput 7) ∧
    ((waiting [.answer .eof] []).nextEvent.1 = .answer .eof ∧ (waiting [.answer .eof] []).phase = .waitingInput 7) ∧
    ((waiting [.nothing] []).nextEvent.1 = .nothing ∧ (waiting [.nothing] []).phase = .waitingInput 7) := by decide

/-- Two polls without an answer, a command applied at the second; and two at which nothing happens. -/
theorem witness_WaitLastsWhileNoAnswerComes :
    ((waiting [.nothing, .serve true, .answer .eof] [.save "p"]).phase = .waitingInput 7 ∧
      (∀ k < 2, ∀ u : State, core.run k (waiting [.nothing, .serve true, .answer .eof] [.save "p"]) = .next u →
        ∀ a, u.nextEvent.1 ≠ .answer a) ∧
      2 ≤ (waiting [.nothing, .serve true, .answer .eof] [.save "p"]).script.length) ∧
    ((waiting [.nothing, .nothing] []).phase = .waitingInput 7 ∧
      ∀ k < 2, ∀ u : State, core.run k (waiting [.nothing, .nothing] []) = .next u → u.nextEvent.1 = .nothing) := by
  refine ⟨⟨rfl, fun k hk u hu a => ?_, by decide⟩, rfl, fun k hk u hu => ?_⟩
  · match k, hk with
    | 0, _ => cases hu; exact nofun
    | 1, _ => cases hu; exact nofun
  · match k, hk with
    | 0, _ => cases hu; rfl
    | 1, _ => cases hu; rfl

theorem witness_FiniteInputEndsEveryWait :
    { waiting [.nothing] [] with params := { Config.defaultParams with inputModel := .finite } }.phase = .waitingInput 7 ∧
    { waiting [.nothing] [] with params := { Config.defaultParams with inputModel := .finite } }.params.inputModel =
      .finite := by decide

theorem witness_HaltStopsAndReports :
    (machine [0x70000000] []).phase = .running ∧ (machine [0x70000000] []).wordAt 0 0 = some 0x70000000 ∧
    (0x70000000 : Word).toNat / 2 ^ 28 = 7 := by decide

/-- A jump alone; a handle not live; a live handle. -/
theorem witness_LoadprogCopiesAndJumps :
    (machine [] [(1, 0)]).reg 1 = 0 ∧
    ((machine [] [(1, 1)]).reg 1 ≠ 0 ∧ (machine [] [(1, 1)]).lenAt ((machine [] [(1, 1)]).reg 1).toNat = none) ∧
    ((arrayOne 0 [(1, 1)]).reg 1 ≠ 0 ∧ (arrayOne 0 [(1, 1)]).lenAt ((arrayOne 0 [(1, 1)]).reg 1).toNat ≠ none) := by decide

theorem witness_LoadedProgramSharesNothing :
    (arrayOne 0 [(1, 1)]).reg 1 ≠ 0 ∧ ∃ t, exec (.loadprog 1 6) (arrayOne 0 [(1, 1)]) = .next t ∧
      (∃ m, memWrite t.mem ((arrayOne 0 [(1, 1)]).reg 1) 2 5 = .ok m) ∧ ∃ m, memWrite t.mem 0 2 5 = .ok m :=
  ⟨by decide, _, rfl, ⟨_, rfl⟩, _, rfl⟩

theorem witness_StepKeepsTheInvariant :
    (arrayOne 0x1000010A [(1, 1), (2, 2)]).Inv ∧ ∃ t, step (arrayOne 0x1000010A [(1, 1), (2, 2)]) = .next t :=
  ⟨by decide, _, rfl⟩

theorem witness_HandlesAreLiveFreeOrUnminted :
    (withArrays (machine [] []) [none, some [5]] [1]).mem.wf ∧
    (1 : Word).toNat ∈ (withArrays (machine [] []) [none, some [5]] [1]).mem.free := by decide

/-- The AMEND writes the word after itself, which the next fetch reads. -/
theorem witness_StoredWordIsFetchedNext :
    (machine [0x20000053, 0] [(2, 1), (3, 0x70000000)]).mem.wf ∧
    (machine [0x20000053, 0] [(2, 1), (3, 0x70000000)]).phase = .running ∧
    (machine [0x20000053, 0] [(2, 1), (3, 0x70000000)]).halted = false ∧
    (machine [0x20000053, 0] [(2, 1), (3, 0x70000000)]).wordAt 0 0 = some 0x20000053 ∧
    decode 0x20000053 = .amend 1 2 3 ∧ (machine [0x20000053, 0] [(2, 1), (3, 0x70000000)]).reg 1 = 0 ∧
    ∃ t, step (machine [0x20000053, 0] [(2, 1), (3, 0x70000000)]) = .next t ∧ t.pc = (1 : Word).toNat :=
  ⟨by decide, by decide, by decide, by decide, by decide, by decide, _, rfl, rfl⟩

/-- ADD r1, r2, r3, in two states that differ in the registers it does not read. -/
theorem witness_InstructionsReadAndWriteAsListed :
    (∀ c, Instr.add 1 2 3 ≠ .input c) ∧
    (∀ r ∈ readRegs (.add 1 2 3) (machine [] [(2, 5), (3, 6)]),
      ({ machine [] [(2, 5), (3, 6)] with regs := #v[9, 9, 5, 6, 9, 9, 9, 9] } : State).reg r =
        (machine [] [(2, 5), (3, 6)]).reg r) ∧
    (∃ t, exec (.add 1 2 3) (machine [] [(2, 5), (3, 6)]) = .next t) ∧
    ∃ u, exec (.add 1 2 3) { machine [] [(2, 5), (3, 6)] with regs := #v[9, 9, 5, 6, 9, 9, 9, 9] } = .next u :=
  ⟨by decide, by decide, ⟨_, rfl⟩, _, rfl⟩

/-- A machine whose next step is no poll applies no Load. -/
theorem no_load_of_decode {s : State} {w : Word} (hp : s.phase = .running) (hf : s.wordAt 0 s.pc = some w)
    (hd : ∀ c, decode w ≠ .input c) : ¬ s.LoadsNow := by
  rintro ⟨⟨c, h | ⟨-, v, hv, hc⟩⟩, -⟩
  · rw [hp] at h; cases h
  · rw [hf] at hv; cases hv; exact hd c hc

/-- A machine whose event is not a command served applies no Load. -/
theorem no_load_of_event {s : State} (h : s.nextEvent.1 ≠ .serve true) : ¬ s.LoadsNow := fun k => h k.2.1

/-- A machine whose oldest command is not a Load applies no Load. -/
theorem no_load_of_queue {s : State} (h : ∀ p q, s.queue ≠ .load p :: q) : ¬ s.LoadsNow :=
  fun ⟨_, _, _, p, q, _, hq, _⟩ => h p q hq

/-- An ADD; a HALT; an IN at whose poll a Save is applied. -/
theorem witness_OnlyHaltEndsARun :
    ((machine [0x30000053] []).Inv ∧ (machine [0x30000053] []).phase = .running ∧
      (machine [0x30000053] []).wordAt 0 0 = some 0x30000053 ∧ ¬ (machine [0x30000053] []).LoadsNow ∧
      ∃ t, step (machine [0x30000053] []) = .next t) ∧
    ((machine [0x70000000] []).Inv ∧ (machine [0x70000000] []).phase = .running ∧
      (machine [0x70000000] []).wordAt 0 0 = some 0x70000000 ∧ decode 0x70000000 = .halt ∧
      ∃ t, step (machine [0x70000000] []) = .next t) ∧
    (saving.Inv ∧ saving.phase = .running ∧ saving.wordAt 0 0 = some 0xB0000007 ∧ ¬ saving.LoadsNow ∧
      ∃ t, step saving = .next t) :=
  ⟨⟨by decide, rfl, by decide, no_load_of_decode rfl (w := 0x30000053) (by decide) (by decide), _, rfl⟩,
    ⟨by decide, rfl, by decide, by decide, _, rfl⟩,
    by decide, rfl, by decide, no_load_of_queue (fun p q h => by cases h), _, rfl⟩

/-- A jump; a step to the next word; an IN at whose poll a Save is applied; a wait going on. -/
theorem witness_OnlyLoadprogJumps :
    ((machine [0xC0000001] []).phase = .running ∧ (machine [0xC0000001] []).wordAt 0 0 = some 0xC0000001 ∧
      (∃ t, step (machine [0xC0000001] []) = .next t) ∧ decode 0xC0000001 = .loadprog 0 1) ∧
    ((machine [0x30000053] []).phase = .running ∧ (machine [0x30000053] []).wordAt 0 0 = some 0x30000053 ∧
      (∃ t, step (machine [0x30000053] []) = .next t) ∧ (∀ b c, decode 0x30000053 ≠ .loadprog b c) ∧
      ¬ (machine [0x30000053] []).LoadsNow) ∧
    (saving.phase = .running ∧ saving.wordAt 0 0 = some 0xB0000007 ∧ (∃ t, step saving = .next t) ∧
      (∀ b c, decode 0xB0000007 ≠ .loadprog b c) ∧ ¬ saving.LoadsNow) ∧
    ((waiting [.nothing] []).phase ≠ .running ∧ (∃ t, step (waiting [.nothing] []) = .next t) ∧
      ¬ (waiting [.nothing] []).LoadsNow) :=
  ⟨⟨by decide, by decide, ⟨_, rfl⟩, by decide⟩,
    ⟨by decide, by decide, ⟨_, rfl⟩, by decide, no_load_of_decode rfl (w := 0x30000053) (by decide) (by decide)⟩,
    ⟨rfl, by decide, ⟨_, rfl⟩, by decide, no_load_of_queue (fun p q h => by cases h)⟩,
    nofun, ⟨_, rfl⟩, no_load_of_event nofun⟩

/-- A step that completes, and one that leaves the machine waiting after a Save. -/
theorem witness_CompletedStepsAreCounted :
    ((machine [0x30000053] []).phase = .running ∧ (machine [0x30000053] []).wordAt 0 0 = some 0x30000053 ∧
      ∃ t, step (machine [0x30000053] []) = .next t ∧ ∀ c, t.phase ≠ .waitingInput c) ∧
    (saving.phase = .running ∧ saving.wordAt 0 0 = some 0xB0000007 ∧ ¬ saving.LoadsNow ∧
      ∃ t, step saving = .next t ∧ t.phase = .waitingInput 7) :=
  ⟨⟨by decide, by decide, _, rfl, fun c h => by cases h⟩, rfl, by decide, no_load_of_queue (fun p q h => by cases h), _, rfl, rfl⟩

theorem witness_OnlyOutWritesAndOnlyHaltReports :
    (∃ t, step (machine [0xA0000000] []) = .next t ∧ t.output ≠ []) ∧
    ∃ t, step (machine [0x70000000] []) = .next t ∧ t.report ≠ none :=
  ⟨⟨_, rfl, by decide⟩, _, rfl, by decide⟩

/-- An ADD; an IN at whose poll a Save is applied; a wait going on. -/
theorem witness_OnlyFiveInstructionsTouchTheStore :
    ((∃ t, step (machine [0x30000053] []) = .next t) ∧ ¬ (machine [0x30000053] []).LoadsNow ∧
      (machine [0x30000053] []).wordAt 0 0 = some 0x30000053 ∧ (∀ a b c, decode 0x30000053 ≠ .amend a b c) ∧
      (∀ b c, decode 0x30000053 ≠ .alloc b c) ∧ (∀ c, decode 0x30000053 ≠ .abandon c) ∧
      ∀ b c, decode 0x30000053 ≠ .loadprog b c) ∧
    ((∃ t, step saving = .next t) ∧ ¬ saving.LoadsNow ∧ saving.wordAt 0 0 = some 0xB0000007 ∧
      (∀ a b c, decode 0xB0000007 ≠ .amend a b c) ∧ (∀ b c, decode 0xB0000007 ≠ .alloc b c) ∧
      (∀ c, decode 0xB0000007 ≠ .abandon c) ∧ ∀ b c, decode 0xB0000007 ≠ .loadprog b c) ∧
    ((∃ t, step (waiting [.nothing] []) = .next t) ∧ ¬ (waiting [.nothing] []).LoadsNow ∧
      (waiting [.nothing] []).phase ≠ .running) :=
  ⟨⟨⟨_, rfl⟩, no_load_of_decode rfl (w := 0x30000053) (by decide) (by decide), by decide, by decide, by decide,
      by decide, by decide⟩,
    ⟨⟨_, rfl⟩, no_load_of_queue (fun p q h => by cases h), by decide, by decide, by decide, by decide, by decide⟩,
    ⟨_, rfl⟩, no_load_of_event nofun, nofun⟩

/-- Each fault execute can raise; ALLOC's for want of storage. -/
theorem witness_FaultsHaveTheirListedCauses :
    exec (.index 4 1 2) (arrayOne 0 [(1, 9)]) = .fault (.handle 9) ∧
    exec (.amend 1 2 3) (arrayOne 0 [(1, 1), (2, 3)]) = .fault (.index 1 3) ∧
    exec (.div 1 2 3) State.reset = .fault .div0 ∧ exec (.abandon 0) State.reset = .fault .free0 ∧
    exec (.abandon 2) (machine [] [(2, 7)]) = .fault (.freeDead 7) ∧
    exec (.alloc 1 0) (bounded 4 [(0, 2)]) = .fault (.alloc 2) := ⟨rfl, rfl, rfl, rfl, rfl, rfl⟩

/-- Where no handle is left, an ALLOC of no words faults whatever the store. -/
theorem alloc_no_handle {m : Memory} (hf : m.free = []) (hc : 2 ^ 32 ≤ m.count) :
    exec (.alloc 1 0) { State.reset with mem := m } = .fault (.alloc 0) := by
  rcases memAlloc_cases none m 0 with ⟨-, e⟩ | ⟨-, ⟨h, rest, hf', -⟩ | ⟨-, hl, -⟩⟩
  · exact outcome_map_fault.2 e
  · rw [hf] at hf'; cases hf'
  · omega

/-- ALLOC's fault for want of a handle. -/
theorem witness_FaultsHaveTheirListedCauses_no_handle :
    exec (.alloc 1 0) { State.reset with mem := allLive (2 ^ 32) } = .fault (.alloc 0) :=
  alloc_no_handle rfl (by simp only [Memory.count, allLive, List.length_replicate]; exact le_refl _)

theorem witness_ParametersNeverChange : ∃ t, step (waiting [.serve true] []) = .next t := ⟨_, rfl⟩

/-- A blob that records no legal Machine State: it has no array 0. -/
def forgedBlob : Snapshot := { blobOfH1 with mem := { arrays := [], free := [] } }

/-- An arriving command, in the IN's own step and in a wait, with a command port and without. -/
theorem witness_ArrivingCommandsJoinTheQueue :
    { saving with script := [.arrive (.load "q")] }.nextEvent.1 = .arrive (.load "q") ∧
    { saving with script := [.arrive (.load "q")] }.params.hostCommands = true ∧
    (waiting [.arrive (.load "q")] [.save "p"]).nextEvent.1 = .arrive (.load "q") ∧
    (waiting [.arrive (.load "q")] [.save "p"]).phase = .waitingInput 7 ∧
    { waiting [.arrive (.load "q")] [] with params := { Config.defaultParams with hostCommands := false } }.nextEvent.1 =
      .arrive (.load "q") ∧
    ({ waiting [.arrive (.load "q")] [] with params := { Config.defaultParams with hostCommands := false } }
      |>.params.hostCommands) = false := by decide

/-- A command that fails; a Load of nothing readable, and of a forged blob. -/
theorem witness_FailedCommandsAndRoundTrip_failed :
    ((waiting [.serve false] [.load "p"]).params.hostCommands = true ∧
      (waiting [.serve false] [.load "p"]).queue = .load "p" :: [] ∧
      (waiting [.serve false] [.load "p"]).nextEvent.1 = .serve false ∧
      (waiting [.serve false] [.load "p"]).phase = .waitingInput 7) ∧
    ((machineB .unreadable).params.hostCommands = true ∧ (machineB .unreadable).queue = .load "p" :: [] ∧
      (machineB .unreadable).nextEvent.1 = .serve true ∧ (machineB .unreadable).phase = .waitingInput 5 ∧
      (machineB .unreadable).nextEvent.2.blobAt "p" = .unreadable) ∧
    ((machineB (.snapshot forgedBlob)).params.hostCommands = true ∧
      (machineB (.snapshot forgedBlob)).queue = .load "p" :: [] ∧
      (machineB (.snapshot forgedBlob)).nextEvent.1 = .serve true ∧
      (machineB (.snapshot forgedBlob)).nextEvent.2.blobAt "p" = .snapshot forgedBlob ∧ ¬ forgedBlob.wf) :=
  ⟨by decide, by decide, by decide, by decide, by decide, by decide, by decide⟩

/-- A Save and then a Load of one path, begun in a wait and in the IN's own step. -/
theorem witness_FailedCommandsAndRoundTrip_round_trip :
    ∀ s ∈ [waiting [.serve true, .serve true] [.save "p", .load "p"],
        { saving with script := [.serve true, .serve true], queue := [.save "p", .load "p"] }],
      s.params.hostCommands = true ∧ s.queue = .save "p" :: .load "p" :: [] ∧ s.nextEvent.1 = .serve true ∧ s.Inv ∧
      ∃ t, exec (.input 7) s = .next t ∧ t.nextEvent.1 = .serve true := by
  intro s hs
  rcases List.mem_cons.1 hs with rfl | hs
  · exact ⟨rfl, rfl, rfl, by decide, _, rfl, rfl⟩
  · rcases List.mem_singleton.1 hs with rfl
    exact ⟨rfl, rfl, rfl, by decide, _, rfl, rfl⟩

/-- Machine A of H1 in its wait, whose Machine State the blob records; machine B of H2 loads it. -/
theorem witness_LoadReplacesTheMachineState :
    ∃ o : State, o.snapshot = blobOfH1 ∧ o.Inv ∧ (machineB (.snapshot blobOfH1)).phase = .waitingInput 5 ∧
      (machineB (.snapshot blobOfH1)).params.hostCommands = true ∧
      (machineB (.snapshot blobOfH1)).queue = .load "p" :: [] ∧
      (machineB (.snapshot blobOfH1)).nextEvent.1 = .serve true ∧
      (machineB (.snapshot blobOfH1)).nextEvent.2.blobAt "p" = .snapshot o.snapshot :=
  ⟨{ machine [0xD2000007, 0xB0000002, 0xA0000002, 0x70000000] [(1, 7)] with
      pc := 2, count := 1, phase := .waitingInput 2 }, by decide, by decide, by decide, by decide, by decide, by decide,
    by decide⟩

/-- Machine B of H2: the blob of H1, then the byte `79`. -/
theorem witness_InputCompletesInTheLoadedState :
    (machineB (.snapshot blobOfH1)).phase = .waitingInput 5 ∧
    (machineB (.snapshot blobOfH1)).params.hostCommands = true ∧
    (machineB (.snapshot blobOfH1)).queue = .load "p" :: [] ∧
    (machineB (.snapshot blobOfH1)).nextEvent.1 = .serve true ∧
    (machineB (.snapshot blobOfH1)).nextEvent.2.blobAt "p" = .snapshot blobOfH1 ∧ blobOfH1.wf ∧
    (onNext (exec (.input 5) (machineB (.snapshot blobOfH1))) fun t => t.nextEvent.1) =
      some (.answer (.byte 0x79)) := by decide

/-- In the IN's own step, and in a wait. -/
theorem witness_SaveStoresTheMachineState :
    (saving.params.hostCommands = true ∧ saving.queue = .save "p" :: [] ∧ saving.nextEvent.1 = .serve true) ∧
    ((waiting [.serve true] [.save "p"]).phase = .waitingInput 7 ∧
      (waiting [.serve true] [.save "p"]).params.hostCommands = true ∧
      (waiting [.serve true] [.save "p"]).queue = .save "p" :: [] ∧
      (waiting [.serve true] [.save "p"]).nextEvent.1 = .serve true) := by decide

/-- A step outside a wait; steps with and without a command port. -/
theorem witness_CommandsAreServedOnlyDuringInput :
    ((∃ t, step (machine [0x30000053] []) = .next t) ∧ (machine [0x30000053] []).phase = .running ∧
      (machine [0x30000053] []).wordAt 0 0 = some 0x30000053 ∧ ∀ c, decode 0x30000053 ≠ .input c) ∧
    (∃ t, step (waiting [.serve true] [.save "p"]) = .next t ∧ t.queue = []) ∧
    ({ waiting [.serve true] [.save "p"] with params := { Config.defaultParams with hostCommands := false } }
      |>.params.hostCommands) = false :=
  ⟨⟨⟨_, rfl⟩, by decide, by decide, by decide⟩, ⟨_, rfl, rfl⟩, rfl⟩

/-- H4's queue: nothing applied; one command; both. -/
theorem witness_AnyPrefixOfTheQueueIsServed :
    ∀ oks ∈ ([[], [true], [true, false]] : List (List Bool)),
      (waiting (oks.map .serve ++ [.answer .eof]) [.save "p", .load "q"]).Polls 7 ∧
      (waiting (oks.map .serve ++ [.answer .eof]) [.save "p", .load "q"]).params.hostCommands = true ∧
      oks.length ≤ (waiting (oks.map .serve ++ [.answer .eof]) [.save "p", .load "q"]).queue.length ∧
      (waiting (oks.map .serve ++ [.answer .eof]) [.save "p", .load "q"]).script =
        oks.map .serve ++ .answer .eof :: [] := by
  intro oks h
  refine ⟨.inl rfl, rfl, ?_, rfl⟩
  revert oks; decide

/-- From the IN's own step. -/
theorem witness_AnyPrefixOfTheQueueIsServed_running :
    { saving with script := [.serve true, .answer .eof] }.Polls 7 ∧
    { saving with script := [.serve true, .answer .eof] }.params.hostCommands = true ∧
    [true].length ≤ { saving with script := [.serve true, .answer .eof] }.queue.length ∧
    { saving with script := [.serve true, .answer .eof] }.script = [true].map .serve ++ .answer .eof :: [] :=
  ⟨.inr ⟨rfl, 0xB0000007, by decide, by decide⟩, rfl, by decide, rfl⟩

/-- A wait without a command port, ended by an answer, and going on. -/
theorem witness_WithoutCommandPortOnlyTheRegisterChanges :
    ∀ e ∈ ([.answer .eof, .serve true] : List EnvEvent),
      { waiting [e] [.save "p"] with params := { Config.defaultParams with hostCommands := false } }.phase =
        .waitingInput 7 ∧
      { waiting [e] [.save "p"] with params := { Config.defaultParams with hostCommands := false } }.params.hostCommands =
        false ∧
      (onNext (step { waiting [e] [.save "p"] with params := { Config.defaultParams with hostCommands := false } })
        fun _ => ()) = some () := by decide

end Sys2Proof.Tests
end

namespace Sys2Proof.Machine

/-- Settles O10 (spec/10_state.md R10): the case `q = r` reads the word just written, any other register is untouched. -/
theorem registerReadReturnsLastWrite : Obligations.RegisterReadReturnsLastWrite := by
  intro s r q v
  split
  case isTrue same => rw [same, State.reg_setReg_same]
  case isFalse other => exact State.reg_setReg_ne s v other

end Sys2Proof.Machine

namespace Sys2Proof

/-! ### The program image (spec/20_memory.md R39) -/

/-- The four terms of the sum are below 2^32 together, so the word holds the sum itself. -/
theorem toNat_imageWord (b0 b1 b2 b3 : Byte) :
    (imageWord b0 b1 b2 b3).toNat = b0.toNat * 2 ^ 24 + b1.toNat * 2 ^ 16 + b2.toNat * 2 ^ 8 + b3.toNat := by
  unfold imageWord
  rw [BitVec.toNat_ofNat, Nat.mod_eq_of_lt (by omega)]

theorem opField_imageWord (b0 b1 b2 b3 : Byte) : opField (imageWord b0 b1 b2 b3) = b0.toNat / 2 ^ 4 := by
  rw [opField_eq, toNat_imageWord]; omega

theorem imageWords_cons (b0 b1 b2 b3 : Byte) (rest : List Byte) :
    imageWords (b0 :: b1 :: b2 :: b3 :: rest) = (imageWords rest).map (imageWord b0 b1 b2 b3 :: ·) := rfl

theorem imageWords_eq_none_iff (bs : List Byte) : imageWords bs = none ↔ bs.length % 4 ≠ 0 := by
  induction bs using imageWords.induct with
  | case1 => simp [imageWords]
  | case2 b0 b1 b2 b3 rest ih =>
    rw [imageWords_cons, Option.map_eq_none_iff, ih]
    simp only [List.length_cons]; omega
  | case3 bs not_nil not_four =>
    match bs with
    | [] => exact absurd rfl not_nil
    | [_] | [_, _] | [_, _, _] => simp [imageWords]
    | b0 :: b1 :: b2 :: b3 :: rest => exact absurd rfl (not_four b0 b1 b2 b3 rest)

/-- Each word takes four bytes, and word k is made of the bytes from 4k on. -/
theorem imageWords_eq_some {bs : List Byte} {ws : List Word} (h : imageWords bs = some ws) :
    bs.length = 4 * ws.length ∧ ∀ k < ws.length, ws.getD k 0 =
      imageWord (bs.getD (4 * k) 0) (bs.getD (4 * k + 1) 0) (bs.getD (4 * k + 2) 0) (bs.getD (4 * k + 3) 0) := by
  induction bs using imageWords.induct generalizing ws with
  | case1 => cases h; simp
  | case2 b0 b1 b2 b3 rest ih =>
    obtain ⟨us, hus, rfl⟩ := Option.map_eq_some_iff.1 h
    obtain ⟨len, words⟩ := ih hus
    refine ⟨by simp only [List.length_cons]; omega, fun k hk => ?_⟩
    cases k with
    | zero => rfl
    | succ k => exact words k (Nat.lt_of_succ_lt_succ hk)
  | case3 bs not_nil not_four => simp [imageWords] at h

end Sys2Proof

namespace Sys2Proof.Machine

/-! ### A word just written -/

/-- A write that succeeds was to a live array, below its length, and leaves that array with the one word written. -/
theorem memWrite_lookup {m m' : Memory} {h i v : Word} (e : memWrite m h i v = .ok m') :
    ∃ a, m.lookup h.toNat = some a ∧ i.toNat < a.len ∧ m'.lookup h.toNat = some (a.write i.toNat v) := by
  rcases memWrite_cases m h i v with ⟨-, fault⟩ | ⟨a, ha, ⟨-, fault⟩ | ⟨hi, done⟩⟩
  · simp [fault] at e
  · simp [fault] at e
  · rw [done] at e; cases e
    exact ⟨a, ha, hi, by rw [Memory.lookup_put _ _ _ _ (Memory.lt_of_lookup ha), if_pos rfl]⟩

theorem memRead_of_lookup {m : Memory} {h i : Word} {a : WordArray} (ha : m.lookup h.toNat = some a)
    (hi : i.toNat < a.len) : memRead m h i = .ok (a.read i.toNat) := by
  simp [memRead, ha, hi]

theorem memFetch_of_lookup {m : Memory} {pc : Nat} {a : WordArray} (ha : m.lookup 0 = some a)
    (hi : pc < a.len) : memFetch m pc = .ok (a.read pc) := by
  simp [memFetch, ha, hi]

/-- Settles O6 (spec/20_memory.md R39): the image by the recursion of `imageWords`, four bytes to a word; the word
read back because the write leaves the array's length and reading a cell just written gives what was written. -/
theorem imageBytesAreBigEndian : Obligations.ImageBytesAreBigEndian := by
  refine ⟨imageWords_eq_none_iff, fun bs ws image => ?_, fun m m' h i v hm e => ?_⟩
  · obtain ⟨len, words⟩ := imageWords_eq_some image
    refine ⟨len, fun k hk => ?_⟩
    rw [words k hk]
    exact ⟨toNat_imageWord _ _ _ _, opField_imageWord _ _ _ _⟩
  · obtain ⟨a, before, hi, after⟩ := memWrite_lookup e
    have written : (a.write i.toNat v).read i.toNat = v :=
      WordArray.read_write_same (hm.1 _ (Memory.lt_of_lookup before) a before) _ _
    refine ⟨?_, fun h0 => ?_⟩
    · rw [memRead_of_lookup after hi, written]
    · subst h0
      rw [memFetch_of_lookup after hi, written]

/-! ### The three states of a handle (spec/20_memory.md R32) -/

/-- The free-handle stack holds the handles below the array count that are not live (R18 b, g). -/
theorem Memory.wf.mem_free_iff {m : Memory} (hm : m.wf) (h : Nat) : h ∈ m.free ↔ h < m.count ∧ m.live h = false := by
  obtain ⟨-, -, -, -, freed, dead⟩ := hm
  exact ⟨freed h, fun hh => dead h hh.1 hh.2⟩

theorem Memory.lt_of_live {m : Memory} {h : Nat} (hl : m.live h = true) : h < m.count := by
  obtain ⟨a, ha⟩ := Memory.live_iff.1 hl
  exact Memory.lt_of_lookup ha

theorem Memory.wf.live_iff_not_free {m : Memory} (hm : m.wf) (h : Nat) :
    m.live h = true ↔ h < m.count ∧ h ∉ m.free := by
  rw [hm.mem_free_iff]
  cases hl : m.live h
  · simp
  · simpa using Memory.lt_of_live hl

theorem Memory.wf.not_live_iff {m : Memory} (hm : m.wf) (h : Nat) :
    m.live h = false ↔ (h < m.count ∧ h ∈ m.free) ∨ m.count ≤ h := by
  rw [← Bool.not_eq_true, hm.live_iff_not_free]
  by_cases hh : h < m.count
  · simp [hh, Nat.not_le.2 hh]
  · simp [hh, Nat.not_lt.1 hh]

/-- The look-up that read, write and copy begin with finds nothing, so each raises `F_HANDLE` (R33, R34, R37). -/
theorem access_of_not_live {m : Memory} {h : Word} (dead : m.live h.toNat = false) (i v : Word) :
    memRead m h i = .error (.handle h) ∧ memWrite m h i v = .error (.handle h) ∧
    memCopyToZero m h = .error (.handle h) := by
  have absent : m.lookup h.toNat = none := by simpa [Memory.live] using dead
  simp [memRead, memWrite, memCopyToZero, absent]

/-- Settles O36 (spec/20_memory.md R32, spec/90_conflicts.md C3, spec/92_eei_decisions.md D10): by what the store's
invariant says of the free-handle stack; a handle on it is not live, and every access looks for a live array first. -/
theorem handlesAreLiveFreeOrUnminted : Obligations.HandlesAreLiveFreeOrUnminted := by
  intro s hm
  have zero_live : s.mem.live 0 = true := hm.2.2.1
  have zero_not_free : 0 ∉ s.mem.free := ((hm.live_iff_not_free 0).1 zero_live).2
  have freed : ∀ h ∈ s.mem.free, h < s.mem.count ∧ s.mem.live h = false := fun h hh => (hm.mem_free_iff h).1 hh
  exact ⟨hm.live_iff_not_free, hm.not_live_iff, fun h hh => (freed h hh).1, zero_live, zero_not_free, rfl,
    fun h i v hh => access_of_not_live (freed _ hh).2 i v⟩

end Sys2Proof.Machine

namespace Sys2Proof

/-! ### Decoding by the operator field (spec/30_encoding.md R69) -/

/-- The operator field alone chooses the instruction (R63). -/
theorem operator_decode (w : Word) : (decode w).operator = opField w := by
  have four_bits := opField_lt w
  unfold decode
  interval_cases opField w <;> rfl

/-- Only ORTHO's immediate could be out of range, and it is read from a 25-bit field (R62, R66). -/
theorem wf_decode (w : Word) : (decode w).wf = true := by
  unfold decode
  split
  case h_14 =>
    have imm_lt : (fieldImm w).toNat < immBound := by rw [fieldImm_toNat, immBound]; omega
    exact decide_eq_true imm_lt
  all_goals rfl

/-- Settles O2 (spec/30_encoding.md R61, R62, R69): numbers at the bit places of the fields are the fields decode reads,
and each operator value then selects one row of its table. -/
theorem decodeReadsTheFields : Obligations.DecodeReadsTheFields := by
  intro w a b c d imm ha hb hc hd himm
  obtain rfl : a = fieldA w := Fin.ext ha
  obtain rfl : b = fieldB w := Fin.ext hb
  obtain rfl : c = fieldC w := Fin.ext (hc.trans (fieldC_val w).symm)
  obtain rfl : d = fieldS w := Fin.ext hd
  obtain rfl : imm = fieldImm w := BitVec.eq_of_toNat_eq (himm.trans (fieldImm_toNat w).symm)
  rw [← opField_eq]
  refine ⟨wf_decode w, ?_, ?_, ?_, ?_, ?_, ?_, ?_, ?_, ?_, ?_, ?_, ?_, ?_, ?_, ?_, ?_⟩
  all_goals
    intro operator
    simp only [decode, operator]

/-! ### The undefined operator values 14 and 15 (spec/30_encoding.md R67) -/

theorem Instr.nop_iff_operator (i : Instr) : (i = .nop14 ∨ i = .nop15) ↔ 14 ≤ i.operator := by
  cases i <;> simp [Instr.operator]

theorem decode_nop_iff (w : Word) : (decode w = .nop14 ∨ decode w = .nop15) ↔ 0xE0000000 ≤ w.toNat := by
  rw [Instr.nop_iff_operator, operator_decode, opField_eq]
  omega

end Sys2Proof

namespace Sys2Proof.Machine

/-- No arm of execute answers a refusal: each gives a next state outright, or a primitive's outcome. -/
theorem exec_ne_refused (i : Instr) (s : State) (r : Refusal) : exec i s ≠ .refused r := by
  cases i with
  | index | amend | div | alloc | abandon => exact outcome_ne_refused
  | loadprog b c =>
    simp only [exec, execLoadprog]
    split
    · exact nofun
    · exact outcome_ne_refused
  | cmov | add | mul | nand | halt | output | input | ortho | nop14 | nop15 => exact nofun

theorem exec_nop {i : Instr} (h : i = .nop14 ∨ i = .nop15) (s : State) : exec i s = .next s := by
  rcases h with rfl | rfl <;> rfl

/-- The state at the end of a running step whose instruction leaves everything to the fetch and the count (R81, R83). -/
theorem State.retire_afterFetch {s : State} (running : s.phase = .running) (not_halted : s.halted = false) :
    s.afterFetch.retire = { s with pc := s.pc + 1, count := s.count + 1 } := by
  rw [State.retire_done _ (by simp [running])]
  simp [State.afterFetch, not_halted]

/-- Settles O5 (spec/30_encoding.md R67, spec/46_control.md R122): the operator field is the word's high four bits, so
14 and 15 are the words from `0xE0000000` on; what such a word decodes to answers the state it is given, which leaves
the finger's increment and the count of the step around it. -/
theorem undefinedOperatorsAreCountedNops : Obligations.UndefinedOperatorsAreCountedNops := by
  refine ⟨fun s => ⟨exec_nop (.inl rfl) s, exec_nop (.inr rfl) s⟩,
    ⟨toNat_standardWord (by decide) 0 0 0, toNat_standardWord (by decide) 0 0 0⟩,
    decode_nop_iff, fun w s undefined running not_halted fetched => ?_, fun w s r => exec_ne_refused (decode w) s r⟩
  have nop := exec_nop ((decode_nop_iff w).2 undefined) s.afterFetch
  calc step s = retireOutcome (exec (decode w) s.afterFetch) := step_running running (State.fetch_ok.2 fetched)
    _ = .next s.afterFetch.retire := by rw [nop]; rfl
    _ = .next { s with pc := s.pc + 1, count := s.count + 1 } := by rw [State.retire_afterFetch running not_halted]

end Sys2Proof.Machine

namespace Sys2Proof.Machine

/-! ### A running step by what execute answers (spec/40_execution_cycle.md R80) -/

section RunningStep

variable {s : State} {w : Word} (running : s.phase = .running) (fetched : s.wordAt 0 s.pc = some w)
include running fetched

theorem step_of_exec_fault {f : Fault} (executed : exec (decode w) s.afterFetch = .fault f) : step s = .fault f := by
  rw [step_running running (State.fetch_ok.2 fetched)]
  exact retireOutcome_fault.2 executed

theorem step_of_exec_next {u : State} (executed : exec (decode w) s.afterFetch = .next u) : step s = .next u.retire := by
  rw [step_running running (State.fetch_ok.2 fetched)]
  exact retireOutcome_next.2 ⟨u, executed, rfl⟩

end RunningStep

/-- Settles O11 (spec/40_execution_cycle.md R80): a fault passes through the end of the step; a next state is retired,
which counts it and enters Halted unless the machine still waits (R82). -/
theorem stepRunsTheDecodedInstruction : Obligations.StepRunsTheDecodedInstruction := by
  rintro s w _ running fetched rfl
  refine ⟨fun f executed => step_of_exec_fault running fetched executed, fun u executed done => ?_,
    fun u c executed waiting => ?_⟩
  · rw [← State.retire_done u done]
    exact step_of_exec_next running fetched executed
  · rw [step_of_exec_next running fetched executed, State.retire_waiting u waiting]

/-! ### The Halted phase (spec/40_execution_cycle.md R84) -/

theorem run_of_step_self {s : State} (fixed : step s = .next s) (n : Nat) : core.run n s = .next s := by
  induction n with
  | zero => rfl
  | succ n ih =>
    have first : core.step s = .next s := fixed
    simp only [Host.Core.run, first, ih]

theorem run_halted {s : State} (halted : s.phase = .halted) (n : Nat) : core.run n s = .next s :=
  run_of_step_self (step_halted halted) n

/-- HALT leaves the phase to the end of the step, which makes it Halted because the flag is set. -/
theorem step_halt {s : State} {w : Word} (running : s.phase = .running) (fetched : s.wordAt 0 s.pc = some w)
    (decoded : decode w = .halt) : ∃ t, step s = .next t ∧ t.halted = true ∧ t.phase = .halted := by
  have executed : exec (decode w) s.afterFetch =
      .next { s.afterFetch with halted := true, report := some (s.count + 1) } := by rw [decoded]; rfl
  refine ⟨_, step_of_exec_next running fetched executed, ?_⟩
  rw [State.retire_done _ (by simp [running])]
  exact ⟨rfl, rfl⟩

/-- Settles O13 (spec/40_execution_cycle.md R84): a halted state is a fixed point of the step, so of any run, and a HALT
step ends in one. -/
theorem haltedMachineStays : Obligations.HaltedMachineStays := by
  refine ⟨fun s n halted => run_halted halted n, fun s w running fetched decoded => ?_⟩
  obtain ⟨t, stepped, flag, phase⟩ := step_halt running fetched decoded
  exact ⟨t, stepped, flag, phase, run_halted phase⟩

end Sys2Proof.Machine

namespace Sys2Proof.Machine

/-! ### Data movement (spec/41_data_movement.md) -/

theorem OnlyRegChanged.refl (d : Reg) (s : State) : OnlyRegChanged d s s :=
  ⟨fun _ _ => rfl, ⟨fun _ _ => rfl, fun _ => rfl, rfl, rfl⟩,
    rfl, ⟨rfl, rfl, rfl⟩, ⟨rfl, rfl, rfl, rfl⟩, rfl, rfl, rfl⟩

/-- The register file is the only field a register write touches, so the rest of the frame is that of no change. -/
theorem State.onlyRegChanged_setReg (s : State) (d : Reg) (v : Word) : OnlyRegChanged d s (s.setReg d v) := by
  obtain ⟨-, store, around⟩ := OnlyRegChanged.refl d s
  exact ⟨fun _ other => State.reg_setReg_ne s v other, store, around⟩

theorem exec_cmov_of_zero {c : Reg} {s : State} (zero : s.reg c = 0) (a b : Reg) :
    exec (.cmov a b c) s = .next s := by
  simp only [exec, execCmov, if_pos zero]

theorem exec_cmov_of_ne_zero {c : Reg} {s : State} (nonzero : s.reg c ≠ 0) (a b : Reg) :
    exec (.cmov a b c) s = .next (s.setReg a (s.reg b)) := by
  simp only [exec, execCmov, if_neg nonzero]

/-- CMOV's operator value is 0, so its word is its register fields alone (R63, R71). -/
theorem toNat_encode_cmov (a b c : Reg) : (encode (.cmov a b c)).toNat = a * 64 + b * 8 + c := by
  rw [encode, toNat_standardWord (by decide), Nat.zero_mul, Nat.zero_add]

/-- Settles O16 (spec/41_data_movement.md R90): on the condition register as a whole word, the state is left as it is
or one register is written. -/
theorem cmovMovesWhenNonzero : Obligations.CmovMovesWhenNonzero := by
  intro a b c
  refine ⟨toNat_encode_cmov a b c, fun s => ?_⟩
  by_cases zero : s.reg c = 0
  · exact ⟨s, exec_cmov_of_zero zero a b, fun nonzero => absurd zero nonzero, fun _ _ => rfl, .refl a s⟩
  · exact ⟨s.setReg a (s.reg b), exec_cmov_of_ne_zero zero a b, fun _ => State.reg_setReg_same s a _,
      fun isZero => absurd isZero zero, s.onlyRegChanged_setReg a _⟩

/-- Cutting a word to 25 bits loses nothing of an immediate that fits in them (R66). -/
theorem immediateOperand_of_lt {imm : Word} (fits : imm.toNat < 2 ^ 25) : immediateOperand imm = imm := by
  apply BitVec.eq_of_toNat_eq
  rw [immediateOperand, BitVec.toNat_setWidth, BitVec.toNat_setWidth, Nat.mod_eq_of_lt fits,
    Nat.mod_eq_of_lt imm.isLt]

theorem exec_ortho {imm : Word} (fits : imm.toNat < 2 ^ 25) (d : Reg) (s : State) :
    exec (.ortho d imm) s = .next (s.setReg d imm) := by
  simp only [exec, execOrtho, immediateOperand_of_lt fits]

theorem toNat_encode_ortho {imm : Word} (fits : imm.toNat < 2 ^ 25) (d : Reg) :
    (encode (.ortho d imm)).toNat = 13 * 2 ^ 28 + d * 2 ^ 25 + imm.toNat := by
  rw [encode, immBound, Nat.mod_eq_of_lt fits, toNat_specialWord d fits]

/-- Settles O17 (spec/41_data_movement.md R91): an immediate that fits its field is written to the one register as it
stands. -/
theorem orthoLoadsTheImmediate : Obligations.OrthoLoadsTheImmediate := by
  intro d imm fits
  exact ⟨toNat_encode_ortho fits d, fun s =>
    ⟨s.setReg d imm, exec_ortho fits d s, State.reg_setReg_same s d imm, s.onlyRegChanged_setReg d imm⟩⟩

end Sys2Proof.Machine

namespace Sys2Proof.Machine

/-! ### One word of an array (spec/20_memory.md R33, R34) -/

/-- Read and write make the same bound check on the array they find, so each raises `F_INDEX` past its end. -/
theorem access_of_len_le {m : Memory} {h i : Word} {arr : WordArray} (found : m.lookup h.toNat = some arr)
    (past : arr.len ≤ i.toNat) (v : Word) :
    memRead m h i = .error (.index h i) ∧ memWrite m h i v = .error (.index h i) := by
  simp [memRead, memWrite, found, Nat.not_lt.2 past]

theorem memWrite_of_lookup {m : Memory} {h i : Word} {arr : WordArray} (found : m.lookup h.toNat = some arr)
    (hi : i.toNat < arr.len) (v : Word) : memWrite m h i v = .ok (m.put h.toNat (some (arr.write i.toNat v))) := by
  simp [memWrite, found, hi]

section WordWritten

variable {s : State} {h : Nat} {arr : WordArray} (found : s.mem.lookup h = some arr)
include found

theorem State.wordAt_put_write_same {i : Nat} (hi : i < arr.len) (canonical : arr.wf) (v : Word) :
    ({ s with mem := s.mem.put h (some (arr.write i v)) } : State).wordAt h i = some v := by
  rw [State.wordAt_put (Memory.lt_of_lookup found), if_pos rfl, WordArray.len_write, if_pos hi,
    WordArray.read_write_same canonical]

/-- Another array is untouched; in the written array the length is the same, and so is a word at another index. -/
theorem State.wordAt_put_write_ne {g i j : Nat} (other : (g, j) ≠ (h, i)) (v : Word) :
    ({ s with mem := s.mem.put h (some (arr.write i v)) } : State).wordAt g j = s.wordAt g j := by
  rw [State.wordAt_put (Memory.lt_of_lookup found)]
  split
  case isTrue same =>
    subst same
    have index_ne : j ≠ i := fun e => other (by rw [e])
    simp only [WordArray.len_write, WordArray.read_write_ne arr v index_ne, State.wordAt, found]
  case isFalse => rfl

theorem State.lenAt_put_write (g i : Nat) (v : Word) :
    ({ s with mem := s.mem.put h (some (arr.write i v)) } : State).lenAt g = s.lenAt g := by
  rw [State.lenAt_put (Memory.lt_of_lookup found)]
  split
  case isTrue same => subst same; exact (State.lenAt_eq_some.2 ⟨arr, found, rfl⟩).symm
  case isFalse => rfl

end WordWritten

theorem State.aroundSame_mem (s : State) (m : Memory) : AroundSame s { s with mem := m } :=
  ⟨rfl, ⟨rfl, rfl, rfl⟩, ⟨rfl, rfl, rfl, rfl⟩, rfl, rfl, rfl⟩

/-! ### Array access (spec/42_array_access.md) -/

section ArrayAccess

variable {a b c : Reg} {s : State}

theorem exec_index_of_error {f : Fault} (read : memRead s.mem (s.reg b) (s.reg c) = .error f) :
    exec (.index a b c) s = .fault f := outcome_map_fault.2 read

theorem exec_index_of_ok {v : Word} (read : memRead s.mem (s.reg b) (s.reg c) = .ok v) :
    exec (.index a b c) s = .next (s.setReg a v) := outcome_map_next.2 ⟨v, read, rfl⟩

theorem exec_amend_of_error {f : Fault} (written : memWrite s.mem (s.reg a) (s.reg b) (s.reg c) = .error f) :
    exec (.amend a b c) s = .fault f := outcome_map_fault.2 written

theorem exec_amend_of_ok {m : Memory} (written : memWrite s.mem (s.reg a) (s.reg b) (s.reg c) = .ok m) :
    exec (.amend a b c) s = .next { s with mem := m } := outcome_map_next.2 ⟨m, written, rfl⟩

end ArrayAccess

/-- Settles O18 (spec/42_array_access.md R95): by what the read answers for a dead handle, past the end, and below the
length; only the last writes a register. -/
theorem indexReadsTheWordOrFaults : Obligations.IndexReadsTheWordOrFaults := by
  intro a b c
  refine ⟨toNat_standardWord (by decide) a b c, fun s => ⟨fun no_len => ?dead, fun n len => ?live⟩⟩
  case dead =>
    exact exec_index_of_error (access_of_not_live (State.lenAt_eq_none.1 no_len) _ 0).1
  case live =>
    obtain ⟨arr, found, rfl⟩ := State.lenAt_eq_some.1 len
    refine ⟨fun past => exec_index_of_error (access_of_len_le found past 0).1, fun below => ?_⟩
    refine ⟨_, exec_index_of_ok (memRead_of_lookup found below), ?_, s.onlyRegChanged_setReg a _⟩
    rw [State.reg_setReg_same]
    exact State.wordAt_eq_some.2 ⟨arr, found, below, rfl⟩

/-- Settles O19 (spec/42_array_access.md R96, spec/20_memory.md R34): the checks are those of the read; a write that
passes them replaces one array by itself with one word changed, and in canonical form that word reads back. -/
theorem amendWritesOneWordOrFaults : Obligations.AmendWritesOneWordOrFaults := by
  intro a b c
  refine ⟨toNat_standardWord (by decide) a b c, fun s hm => ⟨fun no_len => ?dead, fun n len => ?live⟩⟩
  case dead =>
    exact exec_amend_of_error (access_of_not_live (State.lenAt_eq_none.1 no_len) _ _).2.1
  case live =>
    obtain ⟨arr, found, rfl⟩ := State.lenAt_eq_some.1 len
    refine ⟨fun past => exec_amend_of_error (access_of_len_le found past _).2, fun below => ?_⟩
    have canonical : arr.wf := hm.1 _ (Memory.lt_of_lookup found) arr found
    exact ⟨_, exec_amend_of_ok (memWrite_of_lookup found below _),
      State.wordAt_put_write_same found below canonical _,
      fun _ _ other => State.wordAt_put_write_ne found other _,
      fun h => State.lenAt_put_write found h _ _,
      Memory.count_put _ _ _, Memory.free_put _ _ _, fun _ => rfl, s.aroundSame_mem _⟩

end Sys2Proof.Machine

namespace Sys2Proof.Machine

/-! ### Arithmetic (spec/43_arithmetic.md) -/

theorem toNat_addWords (x y : Word) : (addWords x y).toNat = (x.toNat + y.toNat) % 2 ^ 32 := BitVec.toNat_ofNat ..

theorem toNat_mulWords (x y : Word) : (mulWords x y).toNat = (x.toNat * y.toNat) % 2 ^ 32 := BitVec.toNat_ofNat ..

theorem divWords_of_zero (x : Word) {y : Word} (zero : y = 0) : divWords x y = .error .div0 := if_pos zero

/-- A quotient is no larger than its dividend, so narrowing it to 32 bits loses nothing: it is the unsigned `x / y`. -/
theorem divWords_of_ne_zero (x : Word) {y : Word} (nonzero : y ≠ 0) : divWords x y = .ok (x / y) := by
  rw [divWords, if_neg nonzero, ← BitVec.toNat_udiv, BitVec.ofNat_toNat, BitVec.setWidth_eq]

/-- Settles O20 (spec/43_arithmetic.md R100): ADD writes one register with the sum that `addWords` narrows. -/
theorem addIsModuloTwoToThe32 : Obligations.AddIsModuloTwoToThe32 := by
  intro a b c
  refine ⟨toNat_standardWord (by decide) a b c, fun s => ⟨_, rfl, ?_, s.onlyRegChanged_setReg a _⟩⟩
  rw [State.reg_setReg_same, toNat_addWords]

/-- Settles O21 (spec/43_arithmetic.md R101): MUL writes one register with the product that `mulWords` narrows. -/
theorem mulIsModuloTwoToThe32 : Obligations.MulIsModuloTwoToThe32 := by
  intro a b c
  refine ⟨toNat_standardWord (by decide) a b c, fun s => ⟨_, rfl, ?_, s.onlyRegChanged_setReg a _⟩⟩
  rw [State.reg_setReg_same, toNat_mulWords]

section Division

variable {c : Reg} {s : State}

theorem exec_div_of_zero (zero : s.reg c = 0) (a b : Reg) : exec (.div a b c) s = .fault .div0 :=
  outcome_map_fault.2 (divWords_of_zero _ zero)

theorem exec_div_of_ne_zero (nonzero : s.reg c ≠ 0) (a b : Reg) :
    exec (.div a b c) s = .next (s.setReg a (s.reg b / s.reg c)) :=
  outcome_map_next.2 ⟨_, divWords_of_ne_zero _ nonzero, rfl⟩

end Division

/-- Settles O22 (spec/43_arithmetic.md R102): on the divisor, either the fault before any write, or one register written
with the unsigned quotient, which is the floor because the remainder is below the divisor. -/
theorem divIsUnsignedFloorOrFaults : Obligations.DivIsUnsignedFloorOrFaults := by
  intro a b c
  refine ⟨toNat_standardWord (by decide) a b c, fun s =>
    ⟨fun zero => exec_div_of_zero zero a b, fun nonzero => ?_⟩⟩
  have divisor_pos : 0 < (s.reg c).toNat :=
    Nat.pos_of_ne_zero fun toNat_zero => nonzero (BitVec.eq_of_toNat_eq toNat_zero)
  refine ⟨_, exec_div_of_ne_zero nonzero a b, ?_, ?_, s.onlyRegChanged_setReg a _⟩
  all_goals rw [State.reg_setReg_same, BitVec.toNat_udiv]
  · exact Nat.div_mul_le_self _ _
  · exact Nat.lt_mul_of_div_lt (Nat.lt_succ_self _) divisor_pos

end Sys2Proof.Machine

namespace Sys2Proof.Machine

/-! ### IN (spec/45_io.md R116) -/

/-- An instruction other than IN keeps the phase, and IN's own poll ends or keeps the wait for its own register (R82). -/
theorem eq_input_of_exec_waiting {i : Instr} {s t : State} {c : Reg} (running : s.phase = .running)
    (executed : exec i s = .next t) (waiting : t.phase = .waitingInput c) : i = .input c := by
  by_cases isInput : ∃ d, i = .input d
  · obtain ⟨d, rfl⟩ := isInput
    cases executed
    rcases (s.beginInput d).poll_phase d rfl with ⟨-, ended, -⟩ | ⟨-, stays⟩
    · rw [ended] at waiting; cases waiting
    · rw [stays] at waiting; cases waiting; rfl
  · have keeps := exec_keeps (fun d isIn => isInput ⟨d, isIn⟩) executed
    rw [keeps.phase, running] at waiting
    cases waiting

theorem toNat_answerWord_byte (v : Byte) : (answerWord (.byte v)).toNat = v.toNat :=
  (BitVec.toNat_setWidth 32 v).trans (Nat.mod_eq_of_lt (v.isLt.trans (by decide)))

theorem toNat_answerWord_eof : (answerWord .eof).toNat = 2 ^ 32 - 1 := rfl

/-- Completing the IN writes one register, and consuming the event touches the model's own fields only. -/
theorem State.answerWritten_completeInput (s : State) (c : Reg) (a : Answer) :
    AnswerWritten c a s (s.nextEvent.2.completeInput c a) := by
  have written : (s.nextEvent.2.completeInput c a).reg c = answerWord a := by
    rw [State.reg_completeInput, if_pos rfl]
  refine ⟨?byte, ?eof, ?frame⟩
  case byte => rintro v rfl; rw [written, toNat_answerWord_byte]
  case eof => rintro rfl; rw [written, toNat_answerWord_eof]
  case frame =>
    obtain ⟨script, tick, consumed⟩ := s.nextEvent_frame
    rw [consumed]
    exact ⟨fun r other => (State.reg_completeInput _ c r a).trans (if_neg other.symm), StoreSame.of_mem rfl, rfl, rfl,
      ⟨rfl, rfl, rfl, rfl⟩, rfl, rfl, rfl⟩

section Poll

variable {s : State} {c : Reg}

theorem exec_input_of_answer {a : Answer} (answered : s.nextEvent.1 = .answer a) :
    exec (.input c) s = .next (s.nextEvent.2.completeInput c a) := by
  have began : (s.beginInput c).nextEvent.1 = .answer a := by rw [State.nextEvent_beginInput, answered]
  calc exec (.input c) s = .next ((s.beginInput c).poll c) := rfl
    _ = .next (s.nextEvent.2.completeInput c a) := by
      rw [State.poll_answer began, State.nextEvent_beginInput]; rfl

/-- The answer that ends a wait leaves the machine running, so the end of the step counts the IN (R82). -/
theorem step_waiting_of_answer {a : Answer} (waiting : s.phase = .waitingInput c)
    (answered : s.nextEvent.1 = .answer a) :
    step s = .next { s.nextEvent.2.completeInput c a with
      count := s.nextEvent.2.count + 1, phase := if s.nextEvent.2.halted then .halted else .running } := by
  rw [step_waiting waiting, State.poll_answer answered, State.retire_done _ (by simp)]
  rfl

/-- At a poll without an event the wait begins or goes on (R82). -/
theorem exec_input_of_nothing (quiet : s.nextEvent.1 = .nothing) :
    exec (.input c) s = .next (s.nextEvent.2.beginInput c) ∧
    (s.phase = .waitingInput c → step s = .next (s.nextEvent.2.beginInput c)) :=
  exec_input_eq_step (by rw [quiet]; rfl) rfl

end Poll

/-- Settles O29 (spec/45_io.md R116): execute and the step of a wait poll alike, so both complete the IN with the same
register write, or both leave the machine waiting with only the event consumed. -/
theorem inputWaitsForItsAnswer : Obligations.InputWaitsForItsAnswer := by
  refine ⟨fun i s t c running executed waiting => eq_input_of_exec_waiting running executed waiting, fun c =>
    ⟨toNat_standardWord (by decide) 0 0 c, fun s => ?_⟩⟩
  obtain ⟨script, tick, consumed⟩ := s.nextEvent_frame
  refine ⟨fun a answered => ?answer, fun quiet => ?nothing⟩
  case answer =>
    have count : s.nextEvent.2.count = s.count := by rw [consumed]
    have halted : s.nextEvent.2.halted = s.halted := by rw [consumed]
    have written := s.answerWritten_completeInput c a
    refine ⟨⟨_, exec_input_of_answer answered, written, rfl, count⟩, fun waiting => ?_⟩
    exact ⟨_, step_waiting_of_answer waiting answered, written, congrArg (· + 1) count, by rw [halted]⟩
  case nothing =>
    obtain ⟨executed, stepped⟩ := exec_input_of_nothing (c := c) quiet
    have frame : (s.nextEvent.2.beginInput c).snapshot = s.snapshot ∧ PortsSame s (s.nextEvent.2.beginInput c) ∧
        (s.nextEvent.2.beginInput c).params = s.params := by
      rw [consumed]; exact ⟨rfl, ⟨rfl, rfl, rfl, rfl⟩, rfl⟩
    exact ⟨⟨_, executed, rfl, frame⟩, fun waiting => ⟨_, stepped waiting, rfl, frame⟩⟩

end Sys2Proof.Machine

namespace Sys2Proof.Machine

/-! ### Loads (spec/50_interfaces.md R138) -/

/-- A blob that records a legal Machine State replaces the whole of it (R138). -/
theorem State.load_of_snapshot {s : State} {p : Path} {m : Snapshot} (found : s.blobAt p = .snapshot m) (legal : m.wf) :
    s.load p = ({ s with tick := s.tick + 1 } : State).restore m := by
  simp only [State.load, found, if_pos legal]

/-- A command served with its file operation done is the oldest one, applied once it is off the queue (R136). -/
theorem State.serveEvent_cons {s : State} {cmd : Command} {q : List Command} (port : s.params.hostCommands = true)
    (head : s.queue = cmd :: q) : s.serveEvent true = ({ s with queue := q } : State).applyCommand cmd := by
  simp only [State.serveEvent, port, State.serve, head, if_true]

/-- A poll at which a Load of a legal blob is served, in the IN's own step and in a wait begun: the Machine State is the
blob's, the wait is for the same register, the command is off the queue. -/
theorem exec_input_of_load {s : State} {p : Path} {q : List Command} {m : Snapshot} (c : Reg)
    (port : s.params.hostCommands = true) (head : s.queue = .load p :: q) (served : s.nextEvent.1 = .serve true)
    (found : s.nextEvent.2.blobAt p = .snapshot m) (legal : m.wf) :
    let t := ({ s.nextEvent.2.beginInput c with queue := q, tick := s.nextEvent.2.tick + 1 } : State).restore m
    exec (.input c) s = .next t ∧ (s.phase = .waitingInput c → step s = .next t) := by
  obtain ⟨script, tick, consumed⟩ := s.nextEvent_frame
  have port_polled : (s.nextEvent.2.beginInput c).params.hostCommands = true := by rw [consumed]; exact port
  have head_polled : (s.nextEvent.2.beginInput c).queue = .load p :: q := by rw [consumed]; exact head
  refine exec_input_eq_step ?_ rfl
  rw [served]
  exact (State.serveEvent_cons port_polled head_polled).trans (State.load_of_snapshot found legal)

/-- Settles O47 (spec/50_interfaces.md R138): the invariant makes a saved state's blob legal, so the Load restores it
whole; consuming the event touches the model's own fields only, so files and output are those of before. -/
theorem loadReplacesTheMachineState : Obligations.LoadReplacesTheMachineState := by
  intro s o c p q port head served inv found
  obtain ⟨store_wf, finger_lt, -, -⟩ := inv
  obtain ⟨executed, stepped⟩ := exec_input_of_load c port head served found ⟨store_wf, finger_lt⟩
  obtain ⟨script, tick, consumed⟩ := s.nextEvent_frame
  have files : s.nextEvent.2.files = s.files := by rw [consumed]
  have output : s.nextEvent.2.output = s.output := by rw [consumed]
  exact ⟨_, executed, stepped, fun _ => rfl, rfl, rfl, rfl, rfl, rfl, rfl, files, output, rfl⟩

end Sys2Proof.Machine

namespace Sys2Proof.Machine

/-! ### The first instruction after boot (spec/70_reset_and_hazards.md R171) -/

/-- A loaded image lies in array 0 from word 0 on, and the array ends where the image does. -/
theorem State.wordAt_loadImage {s : State} (minted : 0 < s.mem.count) (ws : List Word) (k : Nat) :
    (s.loadImage ws).wordAt 0 k = ws[k]? := by
  calc (s.loadImage ws).wordAt 0 k
      = if k < ws.length then some ((WordArray.ofWords ws).read k) else none := State.wordAt_put minted 0 k
    _ = ws[k]? := by
      split
      case isTrue below => simp [WordArray.read_ofWords, below]
      case isFalse past => exact (List.getElem?_eq_none (Nat.not_lt.1 past)).symm

/-- What boot answers for an image of whole words: all that is left to refuse it is its size (R131, R170). -/
theorem boot_of_words {p : Params} {image : List Byte} {ws : List Word} (words : imageWords image = some ws) :
    boot p image = if p.imageMaxWords < ws.length then .refused .imageTooLong
      else .next (({ State.reset with params := p } : State).loadImage ws) := by
  simp only [boot, words]

theorem eq_loadImage_of_boot {p : Params} {image : List Byte} {ws : List Word} {t : State}
    (words : imageWords image = some ws) (booted : boot p image = .next t) :
    t = ({ State.reset with params := p } : State).loadImage ws := by
  rw [boot_of_words words] at booted
  split at booted
  · cases booted
  · cases booted; rfl

theorem step_of_no_word {s : State} (running : s.phase = .running) (absent : s.wordAt 0 s.pc = none) :
    step s = .fault (.fetch s.pc) := by
  have fetched : s.fetch = .error (.fetch s.pc) := State.fetch_error.2 ⟨absent, rfl⟩
  simp only [step, running, runCycle, fetched]

/-- Settles O9 (spec/70_reset_and_hazards.md R171): the booted machine is running with the finger at 0, and word 0 of
array 0 is the first word of the image, or absent when the image has none. -/
theorem firstInstructionIsWordZero : Obligations.FirstInstructionIsWordZero := by
  refine ⟨fun p => ⟨_, (boot_of_words rfl).trans (if_neg (Nat.not_lt_zero _))⟩,
    fun p image ws t words booted => ?_⟩
  obtain rfl := eq_loadImage_of_boot words booted
  have word_zero : (({ State.reset with params := p } : State).loadImage ws).wordAt 0 0 = ws[0]? :=
    State.wordAt_loadImage (by decide : 0 < State.reset.mem.count) ws 0
  refine ⟨?nonempty, ?empty⟩
  case nonempty => rintro w rest rfl; exact step_running rfl (State.fetch_ok.2 word_zero)
  case empty => rintro rfl; exact step_of_no_word rfl word_zero

end Sys2Proof.Machine

namespace Sys2Proof.Machine

/-! ### The length of a wait (spec/70_reset_and_hazards.md R176) -/

theorem run_succ_of_step {s t : State} (stepped : step s = .next t) (n : Nat) : core.run (n + 1) s = core.run n t := by
  have first : core.step s = .next t := stepped
  simp only [Host.Core.run, first]

/-- A poll takes the head of the script; from an empty script there is nothing to take. -/
theorem State.nextEvent_script_tail (s : State) : s.nextEvent.2.script = s.script.tail := by
  unfold State.nextEvent
  split
  case h_1 script => rw [script]; rfl
  case h_2 script => split <;> simp only [script, List.tail_nil]

/-- What a poll leaves as it was, whatever the event: no command reaches the output or the status port, and only the
poll itself consumes the script. -/
theorem State.poll_frame (s : State) (c : Reg) :
    (s.poll c).output = s.output ∧ (s.poll c).report = s.report ∧ (s.poll c).script = s.script.tail := by
  have applied : (s.poll c).output = s.nextEvent.2.output ∧ (s.poll c).report = s.nextEvent.2.report ∧
      (s.poll c).script = s.nextEvent.2.script := by
    unfold State.poll
    cases s.nextEvent.1 with
    | nothing => exact ⟨rfl, rfl, rfl⟩
    | arrive cmd =>
      obtain ⟨q, enqueued, -⟩ := s.nextEvent.2.enqueue_frame cmd
      simp only [State.applyEvent, enqueued, and_self]
    | serve ok =>
      obtain ⟨-, script, -, output, report, -⟩ := s.nextEvent.2.serveEvent_frame ok
      exact ⟨output, report, script⟩
    | answer a => exact ⟨rfl, rfl, rfl⟩
  obtain ⟨script, tick, consumed⟩ := s.nextEvent_frame
  rw [← s.nextEvent_script_tail]
  rw [consumed] at applied ⊢
  exact applied

/-- A poll without an event changes neither the Machine State nor the ports. -/
theorem State.poll_nothing_frame {s : State} {c : Reg} (quiet : s.nextEvent.1 = .nothing) :
    (s.poll c).snapshot = s.snapshot ∧ PortsSame s (s.poll c) := by
  obtain ⟨script, tick, consumed⟩ := s.nextEvent_frame
  rw [State.poll_nothing quiet, consumed]
  exact ⟨rfl, rfl, rfl, rfl, rfl⟩

theorem PortsSame.trans {s t u : State} (first : PortsSame s t) (second : PortsSame t u) : PortsSame s u := by
  obtain ⟨output₁, report₁, queue₁, files₁⟩ := first
  obtain ⟨output₂, report₂, queue₂, files₂⟩ := second
  exact ⟨output₂.trans output₁, report₂.trans report₁, queue₂.trans queue₁, files₂.trans files₁⟩

/-- The step of a wait at which no answer comes is the poll alone, and the wait goes on (R82). -/
theorem step_waiting_of_no_answer {s : State} {c : Reg} (waiting : s.phase = .waitingInput c)
    (unanswered : ∀ a, s.nextEvent.1 ≠ .answer a) :
    step s = .next (s.poll c) ∧ (s.poll c).phase = .waitingInput c := by
  rcases s.poll_phase c waiting with ⟨⟨a, answered⟩, -⟩ | ⟨-, still⟩
  · exact absurd answered (unanswered a)
  · exact ⟨by rw [step_waiting waiting, State.retire_waiting _ still], still⟩

/-- Settles O30 (spec/70_reset_and_hazards.md R176), by induction on the number of steps: a poll without an answer
leaves the machine waiting with the head of the script consumed, and the polls after it are those of the state it leaves. -/
theorem waitLastsWhileNoAnswerComes : Obligations.WaitLastsWhileNoAnswerComes := by
  intro n
  induction n with
  | zero =>
    intro s c waiting _
    exact ⟨s, rfl, waiting, rfl, rfl, fun _ => rfl, fun _ => ⟨rfl, rfl, rfl, rfl, rfl⟩⟩
  | succ n ih =>
    intro s c waiting unanswered
    obtain ⟨stepped, still⟩ := step_waiting_of_no_answer waiting (unanswered 0 n.succ_pos s rfl)
    obtain ⟨output, report, script⟩ := s.poll_frame c
    have shift {P : State → Prop} (polls : ∀ k < n + 1, ∀ u, core.run k s = .next u → P u) :
        ∀ k < n, ∀ u, core.run k (s.poll c) = .next u → P u := fun k hk u ran =>
      polls (k + 1) (Nat.succ_lt_succ hk) u ((run_succ_of_step stepped k).trans ran)
    obtain ⟨t, ran, waits, output', report', script', quiet'⟩ := ih (s.poll c) c still (shift unanswered)
    refine ⟨t, (run_succ_of_step stepped n).trans ran, waits, output'.trans output, report'.trans report,
      fun enough => ?script, fun quiet => ?quiet⟩
    case script =>
      have enough' : n ≤ (s.poll c).script.length := by rw [script, List.length_tail]; omega
      rw [script' enough', script, List.drop_tail]
    case quiet =>
      obtain ⟨snapshot, ports⟩ := State.poll_nothing_frame (c := c) (quiet 0 n.succ_pos s rfl)
      obtain ⟨snapshot', ports'⟩ := quiet' (shift quiet)
      exact ⟨snapshot'.trans snapshot, ports.trans ports'⟩

end Sys2Proof.Machine

namespace Sys2Proof

/-! ### The canonical encoding (spec/30_encoding.md R71) -/

section StandardWord

variable {op a b c : Nat} (hop : op < 16) (ha : a < 8) (hb : b < 8) (hc : c < 8)
include hop ha hb hc

/-- `toNat_standardWord`, for field values that are numbers in range, an unused field's 0 among them. -/
theorem toNat_standardWord_of_lt : (standardWord op a b c).toNat = op * 2 ^ 28 + a * 64 + b * 8 + c :=
  toNat_standardWord hop ⟨a, ha⟩ ⟨b, hb⟩ ⟨c, hc⟩

theorem opField_standardWord : opField (standardWord op a b c) = op :=
  Laws.OperatorField.of_standard hop ⟨a, ha⟩ ⟨b, hb⟩ ⟨c, hc⟩

theorem fieldA_standardWord : fieldA (standardWord op a b c) = ⟨a, ha⟩ := by
  apply Fin.ext
  simp only [fieldA_val, toNat_standardWord_of_lt hop ha hb hc]; omega

theorem fieldB_standardWord : fieldB (standardWord op a b c) = ⟨b, hb⟩ := by
  apply Fin.ext
  simp only [fieldB_val, toNat_standardWord_of_lt hop ha hb hc]; omega

theorem fieldC_standardWord : fieldC (standardWord op a b c) = ⟨c, hc⟩ := by
  apply Fin.ext
  simp only [fieldC_val, toNat_standardWord_of_lt hop ha hb hc]; omega

end StandardWord

section SpecialWord

variable (d : Reg) {imm : Nat} (fits : imm < 2 ^ 25)
include fits

theorem opField_specialWord : opField (specialWord d imm) = 13 := by
  rw [opField_eq, toNat_specialWord d fits]; omega

theorem fieldS_specialWord : fieldS (specialWord d imm) = d := by
  apply Fin.ext
  rw [fieldS_val, toNat_specialWord d fits]; omega

theorem toNat_fieldImm_specialWord : (fieldImm (specialWord d imm)).toNat = imm := by
  rw [fieldImm_toNat, toNat_specialWord d fits]; omega

end SpecialWord

/-- The fields of a canonical word are the operands it was made from; only ORTHO's immediate can be too wide for its
field, which `Instr.wf` excludes. -/
theorem decode_encode {i : Instr} (legal : i.wf = true) : decode (encode i) = i := by
  cases i with
  | ortho d imm =>
    have fits : imm.toNat < 2 ^ 25 := of_decide_eq_true legal
    have kept : fieldImm (specialWord d imm.toNat) = imm :=
      BitVec.eq_of_toNat_eq (toNat_fieldImm_specialWord d fits)
    simp only [encode, immBound, Nat.mod_eq_of_lt fits, decode, opField_specialWord d fits,
      fieldS_specialWord d fits, kept]
  | cmov | index | amend | add | mul | div | nand | halt | alloc | abandon | output | input | loadprog | nop14
  | nop15 =>
    simp [encode, decode, opField_standardWord, fieldA_standardWord, fieldB_standardWord, fieldC_standardWord]

/-- Encoding a word's instruction keeps the operator and the used fields, and clears the ignored bits (R71). -/
theorem toNat_encode_decode (w : Word) : (encode (decode w)).toNat =
    w.toNat / 2 ^ 28 * 2 ^ 28 + w.toNat % Machine.usedFieldsBound (w.toNat / 2 ^ 28) := by
  have four_bits := opField_lt w
  have fits : (fieldImm w).toNat < 2 ^ 25 := by rw [fieldImm_toNat]; omega
  rw [← opField_eq]
  unfold decode
  generalize opField w = op at four_bits ⊢
  rcases lt_trichotomy op 13 with below | rfl | above
  case inr.inl =>
    simp only [Machine.toNat_encode_ortho fits, fieldS_val, fieldImm_toNat, Machine.usedFieldsBound]
    omega
  all_goals
    interval_cases op
    all_goals
      simp only [encode, toNat_standardWord_of_lt, fieldA_val, fieldB_val, fieldC_val, Machine.usedFieldsBound,
        Nat.reduceLT, Nat.mod_lt]
      omega

theorem usedFieldsBound_dvd (op : Nat) : Machine.usedFieldsBound op ∣ 2 ^ 28 := by
  unfold Machine.usedFieldsBound
  split <;> decide

/-- The part of a word below its operator is the used fields alone when it is below their bound, which divides 2^28. -/
theorem ignoredBitsZero_iff (w : Word) :
    Machine.IgnoredBitsZero w ↔ w.toNat % Machine.usedFieldsBound (w.toNat / 2 ^ 28) = w.toNat % 2 ^ 28 := by
  have divides := usedFieldsBound_dvd (w.toNat / 2 ^ 28)
  have nonzero : Machine.usedFieldsBound (w.toNat / 2 ^ 28) ≠ 0 := ne_zero_of_dvd_ne_zero (by decide) divides
  rw [← Nat.mod_mod_of_dvd w.toNat divides, Nat.mod_eq_iff_lt nonzero, Machine.IgnoredBitsZero]

theorem encode_decode_iff (w : Word) : encode (decode w) = w ↔ Machine.IgnoredBitsZero w := by
  rw [← BitVec.toNat_inj, toNat_encode_decode, ignoredBitsZero_iff]
  omega

/-- Settles O1 (spec/30_encoding.md R71, spec/92_eei_decisions.md D12): decoding reads back the fields of a canonical
word; encoding a decoded word clears its ignored bits, so it gives the word back when they are clear already. -/
theorem decodeInvertsEncode : Obligations.DecodeInvertsEncode :=
  ⟨fun _ legal => decode_encode legal, encode_decode_iff⟩

/-- Settles O4 (spec/30_encoding.md R64, R65, spec/92_eei_decisions.md D4): words that differ in ignored bits only have
one canonical word, and it decodes to the instruction of each. -/
theorem ignoredBitsChangeNothing : Obligations.IgnoredBitsChangeNothing := by
  intro w v operator fields
  have canonical : encode (decode w) = encode (decode v) := by
    apply BitVec.eq_of_toNat_eq
    rw [toNat_encode_decode, toNat_encode_decode, fields, operator]
  calc decode w = decode (encode (decode w)) := (decode_encode (wf_decode w)).symm
    _ = decode (encode (decode v)) := by rw [canonical]
    _ = decode v := decode_encode (wf_decode v)

/-- Settles O3 (spec/30_encoding.md R69): the ten words by evaluation. -/
theorem wordsOfTheTableDecode : Obligations.WordsOfTheTableDecode := by
  unfold Obligations.WordsOfTheTableDecode
  decide

end Sys2Proof

namespace Sys2Proof.Machine

/-! ### Fields at the end of a step (spec/40_execution_cycle.md R80, R83) -/

/-- The end of a step touches the count and the phase only. -/
theorem State.retire_eq (s : State) : ∃ count phase, s.retire = { s with count := count, phase := phase } := by
  unfold State.retire
  split
  · exact ⟨s.count, s.phase, rfl⟩
  · exact ⟨_, _, rfl⟩

section Retire

variable (s : State)

@[simp] theorem State.retire_regs : s.retire.regs = s.regs := by obtain ⟨_, _, e⟩ := s.retire_eq; rw [e]

@[simp] theorem State.retire_pc : s.retire.pc = s.pc := by obtain ⟨_, _, e⟩ := s.retire_eq; rw [e]

@[simp] theorem State.retire_halted : s.retire.halted = s.halted := by obtain ⟨_, _, e⟩ := s.retire_eq; rw [e]

@[simp] theorem State.retire_mem : s.retire.mem = s.mem := by obtain ⟨_, _, e⟩ := s.retire_eq; rw [e]

@[simp] theorem State.retire_output : s.retire.output = s.output := by obtain ⟨_, _, e⟩ := s.retire_eq; rw [e]

@[simp] theorem State.retire_report : s.retire.report = s.report := by obtain ⟨_, _, e⟩ := s.retire_eq; rw [e]

@[simp] theorem State.retire_queue : s.retire.queue = s.queue := by obtain ⟨_, _, e⟩ := s.retire_eq; rw [e]

@[simp] theorem State.retire_files : s.retire.files = s.files := by obtain ⟨_, _, e⟩ := s.retire_eq; rw [e]

@[simp] theorem State.retire_params : s.retire.params = s.params := by obtain ⟨_, _, e⟩ := s.retire_eq; rw [e]

@[simp] theorem State.retire_script : s.retire.script = s.script := by obtain ⟨_, _, e⟩ := s.retire_eq; rw [e]

end Retire

/-! ### The polls of an IN: that of its own step, and those of a wait (spec/40_execution_cycle.md R82) -/

/-- The machine as a poll of an IN for register c finds it: waiting, with the finger past the IN, which an IN yet to be
executed reaches by its fetch (R81). -/
def State.pollStart (s : State) (c : Reg) : State :=
  { s with pc := if s.phase = .running then s.pc + 1 else s.pc, phase := .waitingInput c }

section PollStart

variable {s : State} {c : Reg}

theorem State.pollStart_of_running (running : s.phase = .running) : s.pollStart c = s.afterFetch.beginInput c := by
  simp [State.pollStart, running, State.afterFetch, State.beginInput]

theorem State.pollStart_of_waiting (waiting : s.phase = .waitingInput c) : s.pollStart c = s := by
  have not_running : s.phase ≠ .running := by rw [waiting]; exact nofun
  rw [State.pollStart, if_neg not_running, ← waiting]

/-- A machine that polls takes no other step: the end of the poll is the end of its step. -/
theorem step_of_polls (polls : s.Polls c) : step s = .next ((s.pollStart c).poll c).retire := by
  rcases polls with waiting | ⟨running, w, fetched, decoded⟩
  · rw [step_waiting waiting, State.pollStart_of_waiting waiting]
  · rw [State.pollStart_of_running running]
    exact step_of_exec_next running fetched (by rw [decoded]; rfl)

/-- Unless a Load takes effect, a poll leaves the store, the flag and the count, and the finger is past the IN. -/
theorem State.Polls.keeps (polls : s.Polls c) (no_load : ¬ s.LoadsNow) :
    ((s.pollStart c).poll c).mem = s.mem ∧ ((s.pollStart c).poll c).pc = (s.pollStart c).pc ∧
    ((s.pollStart c).poll c).halted = s.halted ∧ ((s.pollStart c).poll c).count = s.count := by
  rcases polls with waiting | ⟨running, w, fetched, decoded⟩
  · rw [State.pollStart_of_waiting waiting]
    exact State.poll_keeps_waiting waiting no_load
  · rw [State.pollStart_of_running running]
    exact State.poll_keeps_running running fetched decoded no_load

theorem State.Polls.decode_eq {w : Word} (polls : s.Polls c) (running : s.phase = .running)
    (fetched : s.wordAt 0 s.pc = some w) : decode w = .input c := by
  rcases polls with waiting | ⟨-, w', fetched', decoded⟩
  · rw [running] at waiting; cases waiting
  · rw [fetched] at fetched'; cases fetched'; exact decoded

/-- The end of a step that polled: an answer is counted and the machine goes on or, with the flag set, halts; any other
event leaves it waiting, and is not counted (R82). -/
theorem State.retire_poll (waiting : s.phase = .waitingInput c) :
    ((∃ a, s.nextEvent.1 = .answer a) ∧ (s.poll c).halted = s.halted ∧
      (s.poll c).retire = { s.poll c with
        count := (s.poll c).count + 1, phase := if (s.poll c).halted then .halted else .running }) ∨
    ((∀ a, s.nextEvent.1 ≠ .answer a) ∧ (s.poll c).phase = .waitingInput c ∧ (s.poll c).retire = s.poll c) := by
  rcases s.poll_phase c waiting with ⟨answered, ended, flag⟩ | ⟨unanswered, still⟩
  · refine .inl ⟨answered, flag, ?_⟩
    rw [State.retire_done _ (by simp [ended]), ended]
  · exact .inr ⟨unanswered, still, State.retire_waiting _ still⟩

end PollStart

/-! ### The three ways to a next state -/

/-- What a step that answers a next state was: an instruction other than IN executed and counted, a poll of an IN, or
no step at all of a halted machine. -/
inductive StepNext (s t : State) : Prop where
  /-- A fetched instruction that is no IN completes (R80). -/
  | executed {w : Word} {u : State} (running : s.phase = .running) (fetched : s.wordAt 0 s.pc = some w)
      (not_input : ∀ c, decode w ≠ .input c) (executed : exec (decode w) s.afterFetch = .next u)
      (retired : t = { u with count := s.count + 1, phase := if u.halted then .halted else .running })
  /-- An IN polls, in its own step or in a wait begun (R82). -/
  | polled {c : Reg} (polls : s.Polls c) (retired : t = ((s.pollStart c).poll c).retire)
  /-- The machine has halted (R84). -/
  | stayed (halted : s.phase = .halted) (same : t = s)

theorem step_next {s t : State} (stepped : step s = .next t) : StepNext s t := by
  rcases step_next_cases stepped with ⟨running, w, u, fetched, executed, rfl⟩ | ⟨c, waiting, rfl⟩ | ⟨halted, rfl⟩
  · have fetched' := State.fetch_ok.1 fetched
    by_cases isInput : ∃ c, decode w = .input c
    · obtain ⟨c, decoded⟩ := isInput
      have polls : s.Polls c := .inr ⟨running, w, fetched', decoded⟩
      rw [step_of_polls polls] at stepped
      exact .polled polls (Host.Outcome.next.inj stepped).symm
    · have not_input : ∀ c, decode w ≠ .input c := fun c decoded => isInput ⟨c, decoded⟩
      have keeps := exec_keeps not_input executed
      have phase : u.phase = .running := keeps.phase.trans running
      have count : u.count = s.count := keeps.count
      refine .executed running fetched' not_input executed ?_
      rw [State.retire_done _ (by simp [phase]), phase, count]
  · exact .polled (.inl waiting) (by rw [State.pollStart_of_waiting waiting])
  · exact .stayed halted rfl

/-! ### The invariant -/

section StoreWf

variable {m : Memory} (store : m.wf)
include store

theorem Memory.wf.array_wf {h : Nat} {arr : WordArray} (found : m.lookup h = some arr) : arr.wf :=
  store.1 h (Memory.lt_of_lookup found) arr found

theorem Memory.wf.count_le : m.count ≤ 2 ^ 32 := store.2.1

theorem Memory.wf.zero_live : m.live 0 = true := store.2.2.1

end StoreWf

/-- A finger at which the fetch found a word is below the length of array 0, so one past it is still below 2^32. -/
theorem State.pc_succ_lt_of_fetched {s : State} {w : Word} (store : s.mem.wf) (fetched : s.wordAt 0 s.pc = some w) :
    s.pc + 1 < 2 ^ 32 := by
  obtain ⟨arr, found, below, -⟩ := State.wordAt_eq_some.1 fetched
  have len_lt : arr.len < 2 ^ 32 := (store.array_wf found).1
  omega

/-- The phase a counted step ends in is the one the flag asks for (R22, R83). -/
theorem phase_agrees (flag : Bool) :
    ((if flag then Phase.halted else .running) = .running → flag = false) ∧
    ((if flag then Phase.halted else .running) = .halted → flag = true) := by
  cases flag <;> simp

theorem State.Polls.pc_pollStart_lt {s : State} {c : Reg} (inv : s.Inv) (polls : s.Polls c) :
    (s.pollStart c).pc < 2 ^ 32 := by
  obtain ⟨store, finger, -, -⟩ := inv
  rcases polls with waiting | ⟨running, w, fetched, -⟩
  · rw [State.pollStart_of_waiting waiting]; exact finger
  · rw [State.pollStart_of_running running]; exact State.pc_succ_lt_of_fetched store fetched

/-- Settles O35 (spec/10_state.md R13, R18, R22, spec/20_memory.md R31, R35), by the ways to a next state: execute keeps
the store and leaves the finger one past a word that was fetched, or at a register's value; a poll keeps the store and
the finger, a Load because its blob must be legal; the end of the step gives the phase the flag asks for. -/
theorem stepKeepsTheInvariant : Obligations.StepKeepsTheInvariant := by
  intro s t inv stepped
  have ⟨store, finger, _, _⟩ := inv
  cases step_next stepped with
  | @executed w u running fetched not_input executed retired =>
    have keeps := exec_keeps not_input executed
    have finger' : u.pc < 2 ^ 32 := by
      rcases keeps.pc with ⟨b, c, -, jumped⟩ | ⟨-, moved⟩
      · rw [jumped]; exact (s.afterFetch.reg c).isLt
      · rw [moved]; exact State.pc_succ_lt_of_fetched store fetched
    subst retired
    exact ⟨keeps.wf store, finger', phase_agrees u.halted⟩
  | @polled c polls retired =>
    have start_finger := polls.pc_pollStart_lt inv
    obtain ⟨store', finger'⟩ := State.poll_wf (s := s.pollStart c) c store start_finger
    subst retired
    refine ⟨by rw [State.retire_mem]; exact store', by rw [State.retire_pc]; exact finger', ?_⟩
    rcases State.retire_poll (s := s.pollStart c) (c := c) rfl with ⟨-, -, ended⟩ | ⟨-, still, goes_on⟩
    · rw [ended]; exact phase_agrees _
    · rw [goes_on, still]; exact ⟨nofun, nofun⟩
  | stayed halted same => subst same; exact inv

end Sys2Proof.Machine

namespace Sys2Proof.Machine

/-! ### Faults end a run (spec/40_execution_cycle.md R85, spec/60_exceptions.md R152) -/

theorem step_ne_refused (s : State) (r : Refusal) : step s ≠ .refused r := by
  unfold step
  cases s.phase with
  | running =>
    unfold runCycle
    cases s.fetch with
    | error f => exact nofun
    | ok w =>
      cases executed : exec (decode w) s.afterFetch with
      | next u => simp only [executed]; exact nofun
      | fault f => simp only [executed]; exact nofun
      | refused q => exact absurd executed (exec_ne_refused _ _ q)
  | waitingInput c => exact nofun
  | halted => exact nofun
  | faulted f => exact nofun

/-- Settles O15 (spec/30_encoding.md R67, spec/46_control.md R122): the fetch and the polls answer no refusal, and no
arm of execute does. -/
theorem noStepIsRefused : Obligations.NoStepIsRefused := step_ne_refused

theorem step_faulted {s : State} {f : Fault} (faulted : s.phase = .faulted f) : step s = .fault f := by
  simp only [step, faulted]

theorem State.advance_of_fault {s : State} {f : Fault} (fault : step s = .fault f) : s.advance = s.enterFault f := by
  simp only [State.advance, fault]

/-- Entering a fault sets the phase, and no port sees it (R85). -/
theorem State.enterFault_frame {s : State} (alive : ∀ g, s.phase ≠ .faulted g) (f : Fault) :
    (s.enterFault f).phase = .faulted f ∧ (s.enterFault f).output = s.output ∧
    (s.enterFault f).report = s.report := by
  unfold State.enterFault
  split
  case h_1 _ g faulted => exact absurd faulted (alive g)
  all_goals exact ⟨rfl, rfl, rfl⟩

/-- There is no return from a fault (R154). -/
theorem State.advance_of_faulted {s : State} {f : Fault} (faulted : s.phase = .faulted f) : s.advance = s := by
  rw [State.advance_of_fault (step_faulted faulted)]
  simp only [State.enterFault, faulted]

/-- Settles O14 (spec/40_execution_cycle.md R85, spec/60_exceptions.md R152, R154): entering the fault sets the phase
Faulted, from which the step answers the fault and the transition is to the same state, however often it is taken. -/
theorem faultedMachineStays : Obligations.FaultedMachineStays := by
  intro s f fault alive
  rw [State.advance_of_fault fault]
  obtain ⟨phase, output, report⟩ := State.enterFault_frame alive f
  exact ⟨phase, output, report, step_faulted phase, fun n =>
    Function.iterate_fixed (State.advance_of_faulted phase) n⟩

theorem State.wordAt_eq_none_of_len_le {s : State} {h n i : Nat} (len : s.lenAt h = some n) (past : n ≤ i) :
    s.wordAt h i = none := by
  obtain ⟨arr, found, rfl⟩ := State.lenAt_eq_some.1 len
  simp only [State.wordAt, found, if_neg (Nat.not_lt.2 past)]

/-- Settles O12 (spec/40_execution_cycle.md R81, spec/92_eei_decisions.md D8, D9): past the end of array 0 there is no
word to fetch, and a running machine enters the fault. -/
theorem fetchPastTheEndFaults : Obligations.FetchPastTheEndFaults := by
  intro s n running len past
  have fault := step_of_no_word running (State.wordAt_eq_none_of_len_le len past)
  have alive : ∀ g, s.phase ≠ .faulted g := by rw [running]; exact nofun
  exact ⟨fault, by rw [State.advance_of_fault fault]; exact (State.enterFault_frame alive _).1⟩

end Sys2Proof.Machine

namespace Sys2Proof.Machine

/-! ### What an executed instruction changes -/

/-- What execute does to the state, for an instruction other than IN: one constructor for each part of the state that it
can change. -/
inductive ExecEffect (i : Instr) (s : State) : State → Prop where
  /-- CMOV with its condition 0, and the no-operations. -/
  | unchanged (no_dest : writtenReg i s = none) : ExecEffect i s s
  /-- CMOV, INDEX, the arithmetic, ORTHO. -/
  | wroteReg {d : Reg} (v : Word) (dest : writtenReg i s = some d) : ExecEffect i s (s.setReg d v)
  /-- AMEND. -/
  | amended {a b c : Reg} (m : Memory) (instr : i = .amend a b c) : ExecEffect i s { s with mem := m }
  /-- ALLOC. -/
  | allocated {b c : Reg} (m : Memory) (h : Word) (instr : i = .alloc b c) :
      ExecEffect i s (({ s with mem := m } : State).setReg b h)
  /-- ABANDON. -/
  | abandoned {c : Reg} (m : Memory) (instr : i = .abandon c) : ExecEffect i s { s with mem := m }
  /-- LOADPROG. -/
  | jumped {b c : Reg} (m : Memory) (instr : i = .loadprog b c) :
      ExecEffect i s { s with mem := m, pc := (s.reg c).toNat }
  /-- OUT. -/
  | emitted {c : Reg} (instr : i = .output c) : ExecEffect i s (s.emit (lowByte (s.reg c)))
  /-- HALT. -/
  | stopped (instr : i = .halt) : ExecEffect i s { s with halted := true, report := some (s.count + 1) }

theorem exec_effect {i : Instr} {s t : State} (not_input : ∀ c, i ≠ .input c) (executed : exec i s = .next t) :
    ExecEffect i s t := by
  cases i with
  | input c => exact absurd rfl (not_input c)
  | cmov a b c =>
    by_cases zero : s.reg c = 0
    · rw [exec_cmov_of_zero zero] at executed; cases executed
      exact .unchanged (if_pos zero)
    · rw [exec_cmov_of_ne_zero zero] at executed; cases executed
      exact .wroteReg _ (if_neg zero)
  | index a b c | div a b c =>
    obtain ⟨v, -, rfl⟩ := outcome_map_next.1 executed
    exact .wroteReg v rfl
  | add a b c | mul a b c | nand a b c | ortho d imm => cases executed; exact .wroteReg _ rfl
  | amend a b c =>
    obtain ⟨m, -, rfl⟩ := outcome_map_next.1 executed
    exact .amended m rfl
  | alloc b c =>
    obtain ⟨⟨h, m⟩, -, rfl⟩ := outcome_map_next.1 executed
    exact .allocated m h rfl
  | abandon c =>
    obtain ⟨m, -, rfl⟩ := outcome_map_next.1 executed
    exact .abandoned m rfl
  | loadprog b c =>
    by_cases zero : s.reg b = 0
    · simp only [exec, execLoadprog, if_pos zero] at executed; cases executed
      exact .jumped s.mem rfl
    · simp only [exec, execLoadprog, if_neg zero] at executed
      obtain ⟨m, -, rfl⟩ := outcome_map_next.1 executed
      exact .jumped m rfl
  | output c => cases executed; exact .emitted rfl
  | halt => cases executed; exact .stopped rfl
  | nop14 | nop15 => cases executed; exact .unchanged rfl

/-- Only the destination register changes (spec/10_state.md R11). -/
theorem ExecEffect.reg_eq {i : Instr} {s t : State} (effect : ExecEffect i s t) {r : Reg}
    (other : writtenReg i s ≠ some r) : t.reg r = s.reg r := by
  cases effect with
  | wroteReg v dest => exact State.reg_setReg_ne s v fun same => other (by rw [dest, same])
  | allocated m h instr =>
    subst instr
    exact State.reg_setReg_ne _ h fun same => other (by rw [same]; rfl)
  | unchanged | amended | abandoned | jumped | emitted | stopped => rfl

/-- Only OUT reaches the output port (spec/50_interfaces.md R133). -/
theorem ExecEffect.output_eq {i : Instr} {s t : State} (effect : ExecEffect i s t) :
    t.output = s.output ∨ ∃ c, i = .output c ∧ t.output = s.output ++ [lowByte (s.reg c)] := by
  cases effect with
  | emitted instr => exact .inr ⟨_, instr, rfl⟩
  | unchanged | wroteReg | amended | allocated | abandoned | jumped | stopped => exact .inl rfl

/-- Only HALT reaches the status port (spec/50_interfaces.md R135). -/
theorem ExecEffect.report_eq {i : Instr} {s t : State} (effect : ExecEffect i s t) :
    t.report = s.report ∨ i = .halt ∧ t.report = some (s.count + 1) := by
  cases effect with
  | stopped instr => exact .inr ⟨instr, rfl⟩
  | unchanged | wroteReg | amended | allocated | abandoned | jumped | emitted => exact .inl rfl

/-- Only AMEND, ALLOC, ABANDON and LOADPROG touch the Array Store (spec/20_memory.md section 1). -/
theorem ExecEffect.mem_eq {i : Instr} {s t : State} (effect : ExecEffect i s t)
    (others : (∀ a b c, i ≠ .amend a b c) ∧ (∀ b c, i ≠ .alloc b c) ∧ (∀ c, i ≠ .abandon c) ∧
      (∀ b c, i ≠ .loadprog b c)) : t.mem = s.mem := by
  obtain ⟨not_amend, not_alloc, not_abandon, not_loadprog⟩ := others
  cases effect with
  | amended _ instr => exact absurd instr (not_amend _ _ _)
  | allocated _ _ instr => exact absurd instr (not_alloc _ _)
  | abandoned _ instr => exact absurd instr (not_abandon _)
  | jumped _ instr => exact absurd instr (not_loadprog _ _)
  | unchanged | wroteReg | emitted | stopped => rfl

end Sys2Proof.Machine

namespace Sys2Proof.Machine

/-! ### What a poll leaves as it was, and the end of the wait (spec/50_interfaces.md R136) -/

/-- A poll takes at most the head of the queue or finds one command more at its end; without a command port neither the
queue nor a file changes. No event touches the parameters. -/
theorem State.poll_port_frame (s : State) (c : Reg) :
    (s.poll c).params = s.params ∧
    ((s.poll c).queue = s.queue ∨ (∃ cmd, s.queue = cmd :: (s.poll c).queue) ∨
      ∃ cmd, (s.poll c).queue = s.queue ++ [cmd]) ∧
    (s.params.hostCommands = false → (s.poll c).queue = s.queue ∧ (s.poll c).files = s.files) := by
  obtain ⟨script, tick, consumed⟩ := s.nextEvent_frame
  unfold State.poll
  rw [consumed]
  cases s.nextEvent.1 with
  | nothing => exact ⟨rfl, .inl rfl, fun _ => ⟨rfl, rfl⟩⟩
  | answer a => exact ⟨rfl, .inl rfl, fun _ => ⟨rfl, rfl⟩⟩
  | arrive cmd =>
    obtain ⟨q, enqueued, joined, absent⟩ := ({ s with script := script, tick := tick } : State).enqueue_frame cmd
    simp only [State.applyEvent, enqueued]
    exact ⟨trivial, joined.imp id fun last => .inr ⟨cmd, last⟩, fun port => ⟨absent port, trivial⟩⟩
  | serve ok =>
    obtain ⟨params, -, -, -, -, queue, absent⟩ :=
      ({ s with script := script, tick := tick } : State).serveEvent_frame ok
    exact ⟨params, queue.imp id .inl, fun port => by simp only [State.applyEvent, absent port, and_self]⟩

/-- An answer leaves the count to the end of the step. -/
theorem State.poll_answer_count {s : State} {c : Reg} {a : Answer} (answered : s.nextEvent.1 = .answer a) :
    (s.poll c).count = s.count := by
  obtain ⟨script, tick, consumed⟩ := s.nextEvent_frame
  rw [State.poll_answer answered, consumed]; rfl

/-! ### The whole machine -/

/-- Settles O45 (spec/00_scope.md R5; log entry 24): neither execute nor a poll changes the parameters. -/
theorem parametersNeverChange : Obligations.ParametersNeverChange := by
  intro s t stepped
  cases step_next stepped with
  | executed running fetched not_input executed retired =>
    subst retired
    exact (exec_keeps not_input executed).params
  | polled polls retired =>
    obtain ⟨params, -⟩ := State.poll_port_frame (s.pollStart _) _
    rw [retired, State.retire_params]; exact params
  | stayed halted same => rw [same]

/-- Settles O39 (spec/10_state.md section 3, spec/46_control.md R120): HALT alone of the executed instructions sets the
flag, and the phase follows the flag; a poll without a Load keeps the flag, and the flag was false before. -/
theorem onlyHaltEndsARun : Obligations.OnlyHaltEndsARun := by
  intro s t w inv running fetched stepped
  obtain ⟨-, -, flag_of_running, -⟩ := inv
  have flag : s.halted = false := flag_of_running running
  cases step_next stepped with
  | @executed w' u _ fetched' not_input executed retired =>
    obtain rfl : w' = w := Option.some.inj (fetched'.symm.trans fetched)
    have flag' : u.halted = true ↔ decode w' = .halt := by
      rw [(exec_keeps not_input executed).halted, State.afterFetch_halted, flag]; simp
    subst retired
    refine ⟨?_, fun _ => flag'⟩
    rw [← flag']
    simp
  | @polled c polls retired =>
    have decoded := polls.decode_eq running fetched
    subst retired
    rw [decoded, State.retire_halted]
    refine ⟨?phase, fun no_load => ?flag⟩
    case phase =>
      rcases State.retire_poll (s := s.pollStart c) (c := c) rfl with ⟨-, flag', ended⟩ | ⟨-, still, goes_on⟩
      · have flag'' : ((s.pollStart c).poll c).halted = false := flag'.trans flag
        rw [ended, flag'']; simp
      · rw [goes_on, still]; simp
    case flag =>
      obtain ⟨-, -, flag', -⟩ := polls.keeps no_load
      rw [flag', flag]; simp
  | stayed halted same => rw [running] at halted; cases halted

/-- Settles O40 (spec/46_control.md, spec/10_state.md R13): execute moves the finger for LOADPROG only, beyond the
fetch's increment; a poll without a Load leaves it where the wait began. -/
theorem onlyLoadprogJumps : Obligations.OnlyLoadprogJumps := by
  intro s t stepped
  cases step_next stepped with
  | @executed w u running fetched not_input executed retired =>
    have keeps := exec_keeps not_input executed
    subst retired
    refine ⟨fun w' _ fetched' => ?_, fun not_running => absurd running not_running⟩
    obtain rfl : w = w' := Option.some.inj (fetched.symm.trans fetched')
    rcases keeps.pc with ⟨b, c, decoded, jumped⟩ | ⟨not_loadprog, moved⟩
    · refine ⟨fun b' c' decoded' => ?_, fun not_loadprog => absurd decoded (not_loadprog b c)⟩
      rw [decoded] at decoded'; cases decoded'
      exact jumped
    · exact ⟨fun b c decoded => absurd decoded (not_loadprog b c), fun _ _ => moved⟩
  | @polled c polls retired =>
    have finger : ¬ s.LoadsNow → t.pc = (s.pollStart c).pc := fun no_load => by
      obtain ⟨-, finger, -⟩ := polls.keeps no_load
      rw [retired, State.retire_pc, finger]
    refine ⟨fun w running fetched => ⟨fun b d decoded => ?_, fun _ no_load => ?_⟩, fun not_running no_load => ?_⟩
    · rw [polls.decode_eq running fetched] at decoded; cases decoded
    · rw [finger no_load]; exact if_pos running
    · rw [finger no_load]; exact if_neg not_running
  | stayed halted same =>
    subst same
    exact ⟨fun w running => absurd (halted.symm.trans running) nofun, fun _ _ => rfl⟩

/-- Settles O41 (spec/40_execution_cycle.md R82, R83): an executed instruction is counted at the end of its step; the
step of an IN is counted when its answer has come, and until then the machine waits. -/
theorem completedStepsAreCounted : Obligations.CompletedStepsAreCounted := by
  intro s t w running fetched stepped
  cases step_next stepped with
  | @executed w' u _ _ not_input executed retired =>
    subst retired
    refine ⟨fun _ => rfl, fun c waits => ?_⟩
    have done : (if u.halted then Phase.halted else .running) = .waitingInput c := waits
    split at done <;> cases done
  | @polled c polls retired =>
    subst retired
    rcases State.retire_poll (s := s.pollStart c) (c := c) rfl with ⟨⟨a, answered⟩, -, ended⟩ | ⟨-, still, goes_on⟩
    · rw [ended]
      refine ⟨fun _ => congrArg (· + 1) (State.poll_answer_count answered), fun d waits => ?_⟩
      have done : (if ((s.pollStart c).poll c).halted then Phase.halted else .running) = .waitingInput d := waits
      split at done <;> cases done
    · rw [goes_on]
      refine ⟨fun ended => absurd still (ended c), fun d waits => ?_⟩
      rw [still] at waits; cases waits
      refine ⟨polls.decode_eq running fetched, fun no_load => ?_⟩
      obtain ⟨-, -, -, count⟩ := polls.keeps no_load
      exact count
  | stayed halted same => rw [running] at halted; cases halted

theorem toNat_lowByte (w : Word) : (lowByte w).toNat = w.toNat % 256 := BitVec.toNat_setWidth 8 w

/-- Settles O42 (spec/50_interfaces.md R133, R135, spec/92_eei_decisions.md D15, D19): of the executed instructions only
OUT and HALT reach those ports, and a poll reaches neither. -/
theorem onlyOutWritesAndOnlyHaltReports : Obligations.OnlyOutWritesAndOnlyHaltReports := by
  intro s t stepped
  cases step_next stepped with
  | @executed w u running fetched not_input executed retired =>
    have effect := exec_effect not_input executed
    subst retired
    refine ⟨effect.output_eq.imp id ?out, effect.report_eq.imp id ?halt⟩
    case out =>
      rintro ⟨c, decoded, emitted⟩
      exact ⟨w, c, _, running, fetched, decoded, toNat_lowByte _, emitted⟩
    case halt =>
      rintro ⟨decoded, reported⟩
      exact ⟨w, running, fetched, decoded, reported⟩
  | polled polls retired =>
    subst retired
    obtain ⟨output, report, -⟩ := State.poll_frame (s.pollStart _) _
    exact ⟨.inl ((State.retire_output _).trans output), .inl ((State.retire_report _).trans report)⟩
  | stayed halted same => subst same; exact ⟨.inl rfl, .inl rfl⟩

/-- Settles O43 (spec/20_memory.md section 1): of the executed instructions only those four touch the store, and ALLOC
alone mints, one handle at most; a poll without a Load leaves the store. -/
theorem onlyFiveInstructionsTouchTheStore : Obligations.OnlyFiveInstructionsTouchTheStore := by
  intro s t stepped no_load
  cases step_next stepped with
  | @executed w u running fetched not_input executed retired =>
    have effect := exec_effect not_input executed
    subst retired
    exact ⟨fun others => StoreSame.of_mem (effect.mem_eq (others w running fetched)),
      (exec_keeps not_input executed).arrayCount⟩
  | polled polls retired =>
    subst retired
    obtain ⟨store, -⟩ := polls.keeps no_load
    have same := StoreSame.of_mem ((State.retire_mem _).trans store)
    have ⟨_, _, count, _⟩ := same
    exact ⟨fun _ => same, by omega⟩
  | stayed halted same =>
    subst same
    exact ⟨fun _ => StoreSame.of_mem rfl, le_refl _, Nat.le_succ _⟩

/-- Settles O50 (spec/50_interfaces.md R136, spec/92_eei_decisions.md D16): execute leaves queue and files, and the
polls of an IN are the only other steps that change anything. -/
theorem commandsAreServedOnlyDuringInput : Obligations.CommandsAreServedOnlyDuringInput := by
  intro s t stepped
  cases step_next stepped with
  | executed running fetched not_input executed retired =>
    have keeps := exec_keeps not_input executed
    subst retired
    have ports := And.intro keeps.queue keeps.files
    exact ⟨fun _ _ _ _ => ports, .inl keeps.queue, fun _ => ports⟩
  | @polled c polls retired =>
    subst retired
    obtain ⟨-, queue, absent⟩ := State.poll_port_frame (s.pollStart c) c
    rw [State.retire_queue, State.retire_files]
    exact ⟨fun running w fetched not_input => absurd (polls.decode_eq running fetched) (not_input c), queue, absent⟩
  | stayed halted same =>
    subst same
    exact ⟨fun _ _ _ _ => ⟨rfl, rfl⟩, .inl rfl, fun _ => ⟨rfl, rfl⟩⟩

end Sys2Proof.Machine

namespace Sys2Proof.Machine

/-! ### Commands at a poll (spec/50_interfaces.md R136 to R140) -/

/-- Consuming the event of a poll leaves the Machine State and the ports. -/
theorem State.nextEvent_ports (s : State) :
    s.nextEvent.2.snapshot = s.snapshot ∧ PortsSame s s.nextEvent.2 ∧ s.nextEvent.2.params = s.params := by
  obtain ⟨script, tick, consumed⟩ := s.nextEvent_frame
  rw [consumed]
  exact ⟨rfl, ⟨rfl, rfl, rfl, rfl⟩, rfl⟩

/-- An event that does not end the wait leads from the IN's own step, and from a wait begun, to the same next state. -/
theorem exec_input_of_event {s t : State} {c : Reg} {e : EnvEvent} (event : s.nextEvent.1 = e)
    (applied : (s.nextEvent.2.beginInput c).applyEvent c e = t) (waits : t.phase = .waitingInput c) :
    exec (.input c) s = .next t ∧ (s.phase = .waitingInput c → step s = .next t) :=
  exec_input_eq_step (by rw [event]; exact applied) waits

theorem State.enqueue_of_port {s : State} (port : s.params.hostCommands = true) (cmd : Command) :
    s.enqueue cmd = { s with queue := s.queue ++ [cmd] } := if_pos port

theorem State.enqueue_of_no_port {s : State} (absent : s.params.hostCommands = false) (cmd : Command) :
    s.enqueue cmd = s := if_neg (by rw [absent]; exact nofun)

/-- Settles O53 (spec/50_interfaces.md R136, spec/92_eei_decisions.md D16): with a command port the queue is the one
field an arriving command touches, and without one there is none. -/
theorem arrivingCommandsJoinTheQueue : Obligations.ArrivingCommandsJoinTheQueue := by
  intro s c cmd arrived
  obtain ⟨snapshot, ⟨output, report, queue, files⟩, params⟩ := s.nextEvent_ports
  cases port : s.params.hostCommands with
  | true =>
    have port' : (s.nextEvent.2.beginInput c).params.hostCommands = true := (congrArg _ params).trans port
    obtain ⟨executed, stepped⟩ := exec_input_of_event arrived (State.enqueue_of_port port' cmd) rfl
    have joined : s.nextEvent.2.queue ++ [cmd] = s.queue ++ [cmd] := by rw [queue]
    exact ⟨_, executed, stepped, fun _ => joined, nofun, snapshot, rfl, files, output, report, rfl⟩
  | false =>
    have absent : (s.nextEvent.2.beginInput c).params.hostCommands = false := (congrArg _ params).trans port
    obtain ⟨executed, stepped⟩ := exec_input_of_event arrived (State.enqueue_of_no_port absent cmd) rfl
    exact ⟨_, executed, stepped, nofun, fun _ => queue, snapshot, rfl, files, output, report, rfl⟩

/-- A command whose file operation fails is off the queue, and that is all (R140; log entry 32). -/
theorem State.serveEvent_failed {s : State} {cmd : Command} {q : List Command} (port : s.params.hostCommands = true)
    (head : s.queue = cmd :: q) : s.serveEvent false = { s with queue := q } := by
  simp only [State.serveEvent, port, State.serve, head, if_true, Bool.false_eq_true, if_false]

/-- A Load without a blob that records a legal Machine State has drawn its free value, and that is all (R140). -/
theorem State.load_of_malformed {s : State} {p : Path}
    (malformed : s.blobAt p = .unreadable ∨ ∃ m, s.blobAt p = .snapshot m ∧ ¬ m.wf) :
    s.load p = { s with tick := s.tick + 1 } := by
  rcases s.load_cases p with unchanged | ⟨m, found, legal, -⟩
  · exact unchanged
  · rcases malformed with unreadable | ⟨m', found', illegal⟩
    · rw [unreadable] at found; cases found
    · rw [found'] at found; cases found; exact absurd legal illegal

section CommandServed

variable {s : State} {c : Reg} {q : List Command} (port : s.params.hostCommands = true)
include port

theorem exec_input_of_failed {cmd : Command} (head : s.queue = cmd :: q) (served : s.nextEvent.1 = .serve false) :
    let t : State := { s.nextEvent.2.beginInput c with queue := q }
    exec (.input c) s = .next t ∧ (s.phase = .waitingInput c → step s = .next t) := by
  obtain ⟨-, ⟨-, -, queue, -⟩, params⟩ := s.nextEvent_ports
  have port' : (s.nextEvent.2.beginInput c).params.hostCommands = true := (congrArg _ params).trans port
  exact exec_input_of_event served (State.serveEvent_failed port' (queue.trans head)) rfl

theorem exec_input_of_command {cmd : Command} (head : s.queue = cmd :: q) (served : s.nextEvent.1 = .serve true)
    {t : State} (applied : ({ s.nextEvent.2.beginInput c with queue := q } : State).applyCommand cmd = t)
    (waits : t.phase = .waitingInput c) :
    exec (.input c) s = .next t ∧ (s.phase = .waitingInput c → step s = .next t) := by
  obtain ⟨-, ⟨-, -, queue, -⟩, params⟩ := s.nextEvent_ports
  have port' : (s.nextEvent.2.beginInput c).params.hostCommands = true := (congrArg _ params).trans port
  exact exec_input_of_event served ((State.serveEvent_cons port' (queue.trans head)).trans applied) waits

theorem exec_input_of_save {p : Path} (head : s.queue = .save p :: q) (served : s.nextEvent.1 = .serve true) :
    let t := ({ s.nextEvent.2.beginInput c with queue := q } : State).save p
    exec (.input c) s = .next t ∧ (s.phase = .waitingInput c → step s = .next t) :=
  exec_input_of_command port head served rfl rfl

theorem exec_input_of_malformed {p : Path} (head : s.queue = .load p :: q) (served : s.nextEvent.1 = .serve true)
    (malformed : s.nextEvent.2.blobAt p = .unreadable ∨ ∃ m, s.nextEvent.2.blobAt p = .snapshot m ∧ ¬ m.wf) :
    let t : State := { s.nextEvent.2.beginInput c with queue := q, tick := s.nextEvent.2.tick + 1 }
    exec (.input c) s = .next t ∧ (s.phase = .waitingInput c → step s = .next t) :=
  exec_input_of_command port head served (State.load_of_malformed malformed) rfl

end CommandServed

/-- What a Save stores at its path, and at no other (R137; log entry 31). -/
theorem State.fileLookup_save (s : State) (p p' : Path) :
    fileLookup (s.save p).files p' = if p = p' then some (.snapshot s.snapshot) else fileLookup s.files p' :=
  fileLookup_fileStore s.files p p' _

/-- Where this machine has saved, no free value is drawn. -/
theorem State.blobAt_of_lookup {s : State} {p : Path} {b : Blob} (found : fileLookup s.files p = some b) :
    s.blobAt p = b := by
  rw [State.blobAt, found, Option.getD_some]

/-- Settles O48 (spec/50_interfaces.md R137): the Save leaves the Machine State it stores; the event consumed and the
phase of the wait are no part of it. -/
theorem saveStoresTheMachineState : Obligations.SaveStoresTheMachineState := by
  intro s c p q port head served
  obtain ⟨executed, stepped⟩ := exec_input_of_save (c := c) port head served
  obtain ⟨snapshot, ⟨output, -, -, files⟩, -⟩ := s.nextEvent_ports
  have stored := State.fileLookup_save { s.nextEvent.2.beginInput c with queue := q } p
  have at_path := (stored p).trans (if_pos rfl)
  refine ⟨_, executed, stepped, (State.blobAt_of_lookup at_path).trans (congrArg _ snapshot), snapshot, rfl, rfl,
    fun p' other => ?_, output, rfl⟩
  rw [stored p', if_neg other.symm, ← files]
  rfl

/-- Settles O46 (spec/50_interfaces.md R138, R140): a failed command changes the queue only, and so does a Load without
a legal blob; a Load that follows a Save restores the Machine State the Save left, which the invariant makes legal. -/
theorem failedCommandsAndRoundTrip : Obligations.FailedCommandsAndRoundTrip := by
  intro s c q port
  obtain ⟨snapshot, ⟨output, report, -, files⟩, params⟩ := s.nextEvent_ports
  refine ⟨fun cmd head served => ?failed, fun p head served malformed => ?malformed, fun p head served inv => ?trip⟩
  case failed =>
    obtain ⟨executed, stepped⟩ := exec_input_of_failed (c := c) port head served
    exact ⟨_, executed, stepped, snapshot, rfl, rfl, files, output, report, rfl⟩
  case malformed =>
    obtain ⟨executed, stepped⟩ := exec_input_of_malformed (c := c) port head served malformed
    exact ⟨_, executed, stepped, snapshot, rfl, rfl, files, output, report, rfl⟩
  case trip =>
    obtain ⟨executed, stepped⟩ := exec_input_of_save (c := c) port head served
    refine ⟨_, executed, stepped, snapshot, rfl, rfl, fun served' => ?_⟩
    generalize saved : State.save _ p = t at served'
    obtain ⟨store, finger, -⟩ := inv
    have legal : s.snapshot.wf := ⟨store, finger⟩
    have stored : fileLookup t.files p = some (.snapshot s.snapshot) := by
      rw [← saved, State.fileLookup_save, if_pos rfl]
      exact congrArg (some ∘ Blob.snapshot) snapshot
    have found : t.nextEvent.2.blobAt p = .snapshot s.snapshot := by
      obtain ⟨-, ⟨-, -, -, files'⟩, -⟩ := t.nextEvent_ports
      exact State.blobAt_of_lookup (by rw [files', stored])
    have port' : t.params.hostCommands = true := by rw [← saved, ← port, ← params]; rfl
    have head' : t.queue = .load p :: q := by rw [← saved]; rfl
    have waits : t.phase = .waitingInput c := by rw [← saved]; rfl
    obtain ⟨-, loaded⟩ := exec_input_of_load c port' head' served' found legal
    exact ⟨_, loaded waits, rfl, rfl, rfl⟩

/-- Settles O49 (spec/50_interfaces.md R139, spec/92_eei_decisions.md D17): the Load leaves the machine waiting in the
blob's Machine State, and the answer at the next poll completes the IN there. -/
theorem inputCompletesInTheLoadedState : Obligations.InputCompletesInTheLoadedState := by
  intro s c p q m port head served found legal
  obtain ⟨executed, stepped⟩ := exec_input_of_load c port head served found legal
  refine ⟨_, executed, stepped, rfl, fun v answered => ?_⟩
  generalize loaded : State.restore _ m = t at answered
  have waits : t.phase = .waitingInput c := by rw [← loaded]; rfl
  have restored : t.snapshot = m := by rw [← loaded]; rfl
  obtain ⟨byte, -, others, -⟩ := t.answerWritten_completeInput c (.byte v)
  have polled : t.nextEvent.2.snapshot = m := t.nextEvent_ports.1.trans restored
  have flag : t.nextEvent.2.halted = m.halted := congrArg Snapshot.halted polled
  refine ⟨_, step_waiting_of_answer waits answered, byte v rfl, fun r other => (others r other).trans ?_,
    congrArg Snapshot.mem polled, congrArg Snapshot.pc polled, flag, congrArg (·.count + 1) polled, by rw [flag]⟩
  exact congrArg (·.regs[r]) restored

end Sys2Proof.Machine

namespace Sys2Proof.Machine

/-! ### Waits that end (spec/50_interfaces.md R134, spec/92_eei_decisions.md D14, D16) -/

/-- The answer that a poll takes ends the wait, be it the IN's own step or a later one. -/
theorem step_of_polls_answer {s : State} {c : Reg} (polls : s.Polls c) {a : Answer}
    (answered : (s.pollStart c).nextEvent.1 = .answer a) :
    ∃ t, step s = .next t ∧ t.queue = s.queue ∧ t.script = s.script.tail ∧ ∀ d, t.phase ≠ .waitingInput d := by
  refine ⟨_, step_of_polls polls, ?queue, ?script, ?phase⟩
  case queue =>
    obtain ⟨-, ⟨-, -, queue, -⟩, -⟩ := (s.pollStart c).nextEvent_ports
    rw [State.retire_queue, State.poll_answer answered]; exact queue
  case script =>
    obtain ⟨-, -, script⟩ := (s.pollStart c).poll_frame c
    rw [State.retire_script]; exact script
  case phase =>
    rcases State.retire_poll (s := s.pollStart c) (c := c) rfl with ⟨-, -, ended⟩ | ⟨unanswered, -⟩
    · rw [ended]
      cases ((s.pollStart c).poll c).halted <;> exact fun d => nofun
    · exact absurd answered (unanswered a)

theorem run_one_of_step {s t : State} (stepped : step s = .next t) : core.run 1 s = .next t :=
  run_succ_of_step stepped 0

theorem State.nextEvent_finite {s : State} (script : s.script = []) (finite : s.params.inputModel = .finite) :
    s.nextEvent.1 = .answer .eof := by
  simp only [State.nextEvent, script, finite]

/-- Settles O31 (spec/92_eei_decisions.md D14), by induction on the scripted events: a poll takes one, and when none is
left the finite input list answers end of stream. -/
theorem finiteInputEndsEveryWait : Obligations.FiniteInputEndsEveryWait := by
  intro s
  induction events : s.script generalizing s with
  | nil =>
    intro c waiting finite
    have answered : (s.pollStart c).nextEvent.1 = .answer .eof := State.nextEvent_finite events finite
    obtain ⟨t, stepped, -, -, done⟩ := step_of_polls_answer (.inl waiting) answered
    exact ⟨1, t, le_refl _, run_one_of_step stepped, done⟩
  | cons e rest ih =>
    intro c waiting finite
    by_cases answers : ∃ a, s.nextEvent.1 = .answer a
    · obtain ⟨a, answered⟩ := answers
      rw [← State.pollStart_of_waiting waiting] at answered
      obtain ⟨t, stepped, -, -, done⟩ := step_of_polls_answer (.inl waiting) answered
      exact ⟨1, t, by omega, run_one_of_step stepped, done⟩
    · obtain ⟨stepped, still⟩ := step_waiting_of_no_answer waiting fun a answered => answers ⟨a, answered⟩
      obtain ⟨-, -, script⟩ := s.poll_frame c
      obtain ⟨params, -⟩ := s.poll_port_frame c
      have rest_left : (s.poll c).script = rest := by rw [script, events]; rfl
      have finite' : (s.poll c).params.inputModel = .finite := by rw [params, finite]
      obtain ⟨n, t, bound, ran, done⟩ := ih (s.poll c) rest_left c still finite'
      exact ⟨n + 1, t, Nat.succ_le_succ bound, (run_succ_of_step stepped n).trans ran, done⟩

theorem State.applyCommand_queue (s : State) (cmd : Command) : (s.applyCommand cmd).queue = s.queue := by
  cases cmd with
  | save p => rfl
  | load p =>
    show (s.load p).queue = s.queue
    rcases s.load_cases p with unchanged | ⟨m, -, -, loaded⟩
    · rw [unchanged]
    · rw [loaded]; rfl

/-- Serving takes the oldest command from the queue, whatever becomes of it (R136; log entry 32). -/
theorem State.serveEvent_queue {s : State} (port : s.params.hostCommands = true) (ok : Bool) :
    (s.serveEvent ok).queue = s.queue.tail := by
  cases head : s.queue with
  | nil => simp only [State.serveEvent, port, State.serve, head, if_true, List.tail_nil]
  | cons cmd q =>
    cases ok with
    | false => rw [State.serveEvent_failed port head, List.tail_cons]
    | true => rw [State.serveEvent_cons port head, State.applyCommand_queue, List.tail_cons]

/-- A poll that serves a command leaves the machine waiting with the next command at the head of the queue. -/
theorem step_of_polls_serve {s : State} {c : Reg} (polls : s.Polls c) (port : s.params.hostCommands = true) {ok : Bool}
    {rest : List EnvEvent} (events : s.script = .serve ok :: rest) :
    ∃ t, step s = .next t ∧ t.Polls c ∧ t.params = s.params ∧ t.queue = s.queue.tail ∧ t.script = rest := by
  have served : (s.pollStart c).nextEvent = (.serve ok, { s.pollStart c with script := rest }) :=
    State.nextEvent_script events
  obtain ⟨-, -, script⟩ := (s.pollStart c).poll_frame c
  obtain ⟨params, -⟩ := (s.pollStart c).poll_port_frame c
  rcases State.retire_poll (s := s.pollStart c) (c := c) rfl with ⟨⟨a, answered⟩, -⟩ | ⟨-, still, goes_on⟩
  · rw [served] at answered; cases answered
  · refine ⟨(s.pollStart c).poll c, by rw [step_of_polls polls, goes_on], .inl still, params, ?_,
      script.trans (congrArg List.tail events)⟩
    rw [State.poll, served]
    exact State.serveEvent_queue (s := { s.pollStart c with script := rest }) port ok

/-- Settles O51 (spec/50_interfaces.md R136, spec/92_eei_decisions.md D16), by induction on the commands served: each
poll takes one and leaves a machine that polls again, and the answer ends the wait. -/
theorem anyPrefixOfTheQueueIsServed : Obligations.AnyPrefixOfTheQueueIsServed := by
  intro oks
  induction oks with
  | nil =>
    intro s c a rest polls port _ events
    have answered : (s.pollStart c).nextEvent.1 = .answer a := by
      rw [State.nextEvent_script (s := s.pollStart c) events]
    obtain ⟨t, stepped, queue, script, done⟩ := step_of_polls_answer polls answered
    exact ⟨t, run_one_of_step stepped, queue, by rw [script, events]; rfl, done⟩
  | cons ok oks ih =>
    intro s c a rest polls port enough events
    obtain ⟨t, stepped, polls', params, queue, script⟩ := step_of_polls_serve polls port events
    have enough' : oks.length ≤ t.queue.length := by
      rw [queue, List.length_tail]; rw [List.length_cons] at enough; omega
    obtain ⟨u, ran, queue', script', done⟩ := ih t c a rest polls' (by rw [params, port]) enough' script
    exact ⟨u, (run_succ_of_step stepped _).trans ran, by rw [queue', queue, List.drop_tail]; rfl, script', done⟩

/-- Without a command port a poll without an answer only consumes its event (R136). -/
theorem State.poll_of_no_port {s : State} {c : Reg} (absent : s.params.hostCommands = false)
    (unanswered : ∀ a, s.nextEvent.1 ≠ .answer a) : s.poll c = s.nextEvent.2 := by
  obtain ⟨-, -, params⟩ := s.nextEvent_ports
  have absent' : s.nextEvent.2.params.hostCommands = false := (congrArg _ params).trans absent
  unfold State.poll
  cases event : s.nextEvent.1 with
  | nothing => rfl
  | arrive cmd => exact State.enqueue_of_no_port absent' cmd
  | serve ok =>
    obtain ⟨-, -, -, -, -, -, unserved⟩ := s.nextEvent.2.serveEvent_frame ok
    exact unserved absent'
  | answer a => exact absurd event (unanswered a)

/-- Settles O52 (spec/50_interfaces.md R136, spec/92_eei_decisions.md D16): an answer writes the one register, and any
other event only is consumed. -/
theorem withoutCommandPortOnlyTheRegisterChanges : Obligations.WithoutCommandPortOnlyTheRegisterChanges := by
  intro s t c waiting absent stepped
  by_cases answers : ∃ a, s.nextEvent.1 = .answer a
  · obtain ⟨a, answered⟩ := answers
    rw [step_waiting_of_answer waiting answered] at stepped
    obtain ⟨-, -, others, store, finger, flag, ports, -⟩ := s.answerWritten_completeInput c a
    obtain rfl := Host.Outcome.next.inj stepped
    refine ⟨others, store, finger, flag, ports, fun waits => ?_⟩
    have done : (if s.nextEvent.2.halted then Phase.halted else .running) = .waitingInput c := waits
    split at done <;> cases done
  · have unanswered : ∀ a, s.nextEvent.1 ≠ .answer a := fun a answered => answers ⟨a, answered⟩
    rw [(step_waiting_of_no_answer waiting unanswered).1, State.poll_of_no_port absent unanswered] at stepped
    obtain rfl := Host.Outcome.next.inj stepped
    obtain ⟨snapshot, ports, -⟩ := s.nextEvent_ports
    have regs : RegsSame s s.nextEvent.2 := fun r => congrArg (·.regs[r]) snapshot
    exact ⟨fun r _ => regs r, StoreSame.of_mem (congrArg Snapshot.mem snapshot), congrArg Snapshot.pc snapshot,
      congrArg Snapshot.halted snapshot, ports, fun _ => ⟨regs, congrArg Snapshot.count snapshot⟩⟩

end Sys2Proof.Machine

namespace Sys2Proof.Machine

/-! ### What a primitive that succeeds leaves (spec/20_memory.md R35 to R37) -/

theorem State.wordAt_of_lookup {s t : State} {g h : Nat} (same : t.mem.lookup g = s.mem.lookup h) (i : Nat) :
    t.wordAt g i = s.wordAt h i := by
  simp only [State.wordAt, same]

theorem State.lenAt_of_lookup {s t : State} {g h : Nat} (same : t.mem.lookup g = s.mem.lookup h) :
    t.lenAt g = s.lenAt h := by
  simp only [State.lenAt, same]

theorem OtherArraysSame.of_lookup {h : Nat} {s t : State} (same : ∀ g, g ≠ h → t.mem.lookup g = s.mem.lookup g) :
    OtherArraysSame h s t :=
  fun g other => ⟨State.wordAt_of_lookup (same g other), State.lenAt_of_lookup (same g other)⟩

/-- A write that succeeds leaves every other array. -/
theorem memWrite_lookup_ne {m m' : Memory} {h i v : Word} (written : memWrite m h i v = .ok m') {g : Nat}
    (other : g ≠ h.toNat) : m'.lookup g = m.lookup g := by
  rcases memWrite_cases m h i v with ⟨-, fault⟩ | ⟨arr, found, ⟨-, fault⟩ | ⟨-, done⟩⟩
  · rw [fault] at written; cases written
  · rw [fault] at written; cases written
  · rw [done] at written; cases written
    rw [Memory.lookup_put _ _ _ _ (Memory.lt_of_lookup found), if_neg other.symm]

theorem memFree_of_dead {m : Memory} {h : Word} (nonzero : h ≠ 0) (dead : m.live h.toNat = false) :
    memFree m h = .error (.freeDead h) := by
  rcases memFree_cases m h with ⟨zero, -⟩ | ⟨-, -, fault⟩ | ⟨-, live, -⟩
  · exact absurd zero nonzero
  · exact fault
  · rw [dead] at live; cases live

/-- What a Free that succeeds was given and leaves (R36). -/
theorem memFree_ok {m m' : Memory} {h : Word} (freed : memFree m h = .ok m') :
    h ≠ 0 ∧ h.toNat < m.count ∧ (∀ g, m'.lookup g = if h.toNat = g then none else m.lookup g) ∧
    m'.free = h.toNat :: m.free ∧ m'.count = m.count := by
  rcases memFree_cases m h with ⟨-, fault⟩ | ⟨-, -, fault⟩ | ⟨nonzero, live, done⟩
  · rw [fault] at freed; cases freed
  · rw [fault] at freed; cases freed
  · rw [done] at freed; cases freed
    have minted := Memory.lt_of_live live
    exact ⟨nonzero, minted, fun g => Memory.lookup_put m _ g none minted, rfl, Memory.count_put m _ none⟩

/-- What a copy to array 0 that succeeds was given and leaves (R37). -/
theorem memCopyToZero_ok {m m' : Memory} {h : Word} (copied : memCopyToZero m h = .ok m') :
    (∀ g, m'.lookup g = if 0 = g then m.lookup h.toNat else m.lookup g) ∧ m'.free = m.free ∧ m'.count = m.count := by
  rcases memCopyToZero_cases m h with ⟨-, fault⟩ | ⟨arr, found, done⟩
  · rw [fault] at copied; cases copied
  · rw [done] at copied; cases copied
    have minted : 0 < m.count := Nat.zero_lt_of_lt (Memory.lt_of_lookup found)
    exact ⟨fun g => by rw [Memory.lookup_put m 0 g _ minted, found], Memory.free_put m 0 _, Memory.count_put m 0 _⟩

/-- The most recently freed handle is one that was minted and is not live (R18 b). -/
theorem Memory.wf.top_free {m : Memory} (store : m.wf) {top : Nat} {rest : List Nat} (stack : m.free = top :: rest) :
    top < m.count ∧ m.live top = false :=
  (store.mem_free_iff top).1 (by rw [stack]; exact List.mem_cons_self)

section Alloc

variable {cap : Option Nat} {m m' : Memory} {n h : Word} (allocated : memAlloc cap m n = .ok (h, m'))
include allocated

/-- An allocation with a handle free takes the most recently freed one (R35). -/
theorem memAlloc_reuse {top : Nat} {rest : List Nat} (stack : m.free = top :: rest) (minted : top < m.count)
    (fits : top < 2 ^ 32) : h.toNat = top ∧
    (∀ g, m'.lookup g = if top = g then some (WordArray.zeros n.toNat) else m.lookup g) ∧
    m'.free = rest ∧ m'.count = m.count := by
  rcases memAlloc_cases cap m n with ⟨-, fault⟩ | ⟨-, ⟨top', rest', stack', done⟩ | ⟨empty, -⟩⟩
  · rw [fault] at allocated; cases allocated
  · rw [stack] at stack'; cases stack'
    rw [done] at allocated; cases allocated
    exact ⟨by rw [BitVec.toNat_ofNat, Nat.mod_eq_of_lt fits], fun g => Memory.lookup_put m top g _ minted, rfl,
      Memory.count_put m top _⟩
  · rw [stack] at empty; cases empty

/-- An allocation with no handle free mints the next one (R35). -/
theorem memAlloc_mint (empty : m.free = []) : h.toNat = m.count ∧
    (∀ g, m'.lookup g = if m.count = g then some (WordArray.zeros n.toNat) else m.lookup g) ∧
    m'.free = [] ∧ m'.count = m.count + 1 := by
  rcases memAlloc_cases cap m n with ⟨-, fault⟩ | ⟨-, ⟨top, rest, stack, -⟩ | ⟨-, fits, done⟩⟩
  · rw [fault] at allocated; cases allocated
  · rw [empty] at stack; cases stack
  · rw [done] at allocated; cases allocated
    refine ⟨by rw [BitVec.toNat_ofNat, Nat.mod_eq_of_lt fits], fun g => ?_, empty, ?_⟩
    · rw [Memory.lookup_append]; simp only [eq_comm]
    · simp [Memory.count]

/-- Either way the handle was not live, and its array alone is new. -/
theorem memAlloc_fresh (store : m.wf) : m.live h.toNat = false ∧
    ∀ g, m'.lookup g = if h.toNat = g then some (WordArray.zeros n.toNat) else m.lookup g := by
  cases stack : m.free with
  | nil =>
    obtain ⟨handle, lookup, -⟩ := memAlloc_mint allocated stack
    rw [handle]
    exact ⟨(store.not_live_iff _).2 (.inr (le_refl _)), lookup⟩
  | cons top rest =>
    obtain ⟨minted, dead⟩ := store.top_free stack
    obtain ⟨handle, lookup, -⟩ := memAlloc_reuse allocated stack minted (minted.trans_le store.count_le)
    rw [handle]
    exact ⟨dead, lookup⟩

end Alloc

theorem exceedsCapacity_iff {cap : Option Nat} {m : Memory} {n : Nat} :
    exceedsCapacity cap m n = true ↔ ∃ bound, cap = some bound ∧ bound < m.liveWords + n := by
  cases cap <;> simp [exceedsCapacity]

/-! ### Array management (spec/44_array_management.md) -/

section ArrayManagement

variable {b c : Reg} {s : State}

theorem exec_alloc_of_error {f : Fault} (failed : memAlloc s.params.storeCapacity s.mem (s.reg c) = .error f) :
    exec (.alloc b c) s = .fault f := outcome_map_fault.2 failed

theorem exec_alloc_of_ok {h : Word} {m : Memory}
    (allocated : memAlloc s.params.storeCapacity s.mem (s.reg c) = .ok (h, m)) :
    exec (.alloc b c) s = .next (({ s with mem := m } : State).setReg b h) :=
  outcome_map_next.2 ⟨(h, m), allocated, rfl⟩

theorem exec_abandon_of_error {f : Fault} (failed : memFree s.mem (s.reg c) = .error f) :
    exec (.abandon c) s = .fault f := outcome_map_fault.2 failed

theorem exec_abandon_of_ok {m : Memory} (freed : memFree s.mem (s.reg c) = .ok m) :
    exec (.abandon c) s = .next { s with mem := m } := outcome_map_next.2 ⟨m, freed, rfl⟩

theorem memFree_of_exec_abandon {t : State} (executed : exec (.abandon c) s = .next t) :
    ∃ m, memFree s.mem (s.reg c) = .ok m ∧ t = { s with mem := m } := outcome_map_next.1 executed

end ArrayManagement

theorem memAlloc_error {cap : Option Nat} {m : Memory} {n : Word}
    (full : exceedsCapacity cap m n.toNat = true ∨ m.free = [] ∧ 2 ^ 32 ≤ m.count) :
    memAlloc cap m n = .error (.alloc n) := by
  rcases memAlloc_cases cap m n with ⟨-, fault⟩ | ⟨room, ⟨top, rest, stack, -⟩ | ⟨-, fits, -⟩⟩
  · exact fault
  · rw [room, stack] at full; simp at full
  · rw [room] at full; simp at full; omega

theorem exists_memAlloc_ok {cap : Option Nat} {m : Memory} {n : Word}
    (room : ¬ (exceedsCapacity cap m n.toNat = true ∨ m.free = [] ∧ 2 ^ 32 ≤ m.count)) :
    ∃ h m', memAlloc cap m n = .ok (h, m') := by
  rcases memAlloc_cases cap m n with ⟨full, -⟩ | ⟨-, ⟨_, _, -, done⟩ | ⟨-, -, done⟩⟩
  · exact absurd full room
  · exact ⟨_, _, done⟩
  · exact ⟨_, _, done⟩

/-- Settles O24 (spec/44_array_management.md, spec/20_memory.md R35, spec/92_eei_decisions.md D13): the allocation fails
for want of room or of a handle only; else its handle was not live, which handle 0 is, and its array alone is new. -/
theorem allocReturnsAFreshZeroArray : Obligations.AllocReturnsAFreshZeroArray := by
  intro b c s store
  refine ⟨fun full => exec_alloc_of_error (memAlloc_error (full.imp exceedsCapacity_iff.2 ?_)), fun room handle => ?_⟩
  · exact fun ⟨empty, all⟩ => ⟨empty, all.ge⟩
  have not_full : ¬ (exceedsCapacity s.params.storeCapacity s.mem (s.reg c).toNat = true ∨
      s.mem.free = [] ∧ 2 ^ 32 ≤ s.mem.count) := by
    rintro (exceeds | ⟨empty, all⟩)
    · obtain ⟨bound, capacity, above⟩ := exceedsCapacity_iff.1 exceeds
      exact absurd (room bound capacity) (Nat.not_le.2 above)
    · exact absurd (handle empty) (Nat.not_lt.2 all)
  obtain ⟨h, m, allocated⟩ := exists_memAlloc_ok not_full
  obtain ⟨dead, lookup⟩ := memAlloc_fresh allocated store
  have found : m.lookup h.toNat = some (WordArray.zeros (s.reg c).toNat) := by rw [lookup, if_pos rfl]
  refine ⟨_, exec_alloc_of_ok allocated, ?_⟩
  rw [State.reg_setReg_same]
  refine ⟨?nonzero, State.lenAt_eq_none.2 dead, ?reuse, ?mint, State.lenAt_eq_some.2 ⟨_, found, rfl⟩,
    fun i below => State.wordAt_eq_some.2 ⟨_, found, below, rfl⟩,
    .of_lookup fun g other => (lookup g).trans (if_neg other.symm), fun r other => State.reg_setReg_ne _ h other,
    s.aroundSame_mem m⟩
  case nonzero =>
    rintro rfl
    exact Bool.false_ne_true (dead.symm.trans store.zero_live)
  case reuse =>
    intro top rest stack
    obtain ⟨minted, -⟩ := store.top_free stack
    obtain ⟨handle, -, free, count⟩ := memAlloc_reuse allocated stack minted (minted.trans_le store.count_le)
    exact ⟨handle, free, count⟩
  case mint =>
    intro empty
    obtain ⟨handle, -, free, count⟩ := memAlloc_mint allocated empty
    exact ⟨handle, free, count⟩

/-- Settles O25 (spec/44_array_management.md, spec/20_memory.md R36, spec/92_eei_decisions.md D7, D21): the three
answers of Free; where it succeeds the one handle is no longer live and is on top of the stack. -/
theorem abandonFreesTheArrayOrFaults : Obligations.AbandonFreesTheArrayOrFaults := by
  intro c s
  rcases memFree_cases s.mem (s.reg c) with ⟨zero, fault⟩ | ⟨nonzero, dead, fault⟩ | ⟨nonzero, live, freed⟩
  · exact ⟨fun _ => exec_abandon_of_error fault, fun nonzero => absurd zero nonzero,
      fun nonzero => absurd zero nonzero⟩
  · exact ⟨fun zero => absurd zero nonzero, fun _ _ => exec_abandon_of_error fault,
      fun _ len => absurd (State.lenAt_eq_none.2 dead) len⟩
  · have len : s.lenAt (s.reg c).toNat ≠ none := fun no_len => by
      rw [State.lenAt_eq_none.1 no_len] at live; cases live
    refine ⟨fun zero => absurd zero nonzero, fun _ no_len => absurd no_len len, fun _ _ =>
      ⟨_, exec_abandon_of_ok freed, ?_⟩⟩
    obtain ⟨-, -, lookup, free, count⟩ := memFree_ok freed
    have gone : State.lenAt { s with mem := _ } (s.reg c).toNat = none :=
      congrArg (Option.map WordArray.len) ((lookup _).trans (if_pos rfl))
    exact ⟨gone, free, count, .of_lookup fun g other => (lookup g).trans (if_neg other.symm), fun _ => rfl,
      s.aroundSame_mem _⟩

/-- Settles O26 (spec/44_array_management.md, spec/90_conflicts.md C6): the abandoned handle is on top of the stack, and
the allocation takes it from there and zeroes its array. -/
theorem allocAfterAbandonReusesTheHandle : Obligations.AllocAfterAbandonReusesTheHandle := by
  intro b c d s t executed unbounded
  obtain ⟨m, freed, rfl⟩ := memFree_of_exec_abandon executed
  obtain ⟨-, minted, -, stack, count⟩ := memFree_ok freed
  have not_full : ¬ (exceedsCapacity s.params.storeCapacity m (s.reg d).toNat = true ∨
      m.free = [] ∧ 2 ^ 32 ≤ m.count) := by
    rw [unbounded, stack]; simp [exceedsCapacity]
  obtain ⟨h, m', allocated⟩ := exists_memAlloc_ok not_full
  obtain ⟨handle, lookup, free', count'⟩ :=
    memAlloc_reuse allocated stack (minted.trans_eq count.symm) (s.reg c).isLt
  have found : m'.lookup (s.reg c).toNat = some (WordArray.zeros (s.reg d).toNat) := by rw [lookup, if_pos rfl]
  exact ⟨_, exec_alloc_of_ok (s := { s with mem := m }) allocated,
    (State.reg_setReg_same _ b h).trans (BitVec.eq_of_toNat_eq handle), State.lenAt_eq_some.2 ⟨_, found, rfl⟩,
    fun i below => State.wordAt_eq_some.2 ⟨_, found, below, rfl⟩, free', count'.trans count⟩

/-! ### Load Program (spec/46_control.md R121) -/

section Loadprog

variable {b c : Reg} {s : State}

theorem exec_loadprog_of_zero (zero : s.reg b = 0) : exec (.loadprog b c) s = .next { s with pc := (s.reg c).toNat } :=
  if_pos zero

theorem exec_loadprog_of_error {f : Fault} (nonzero : s.reg b ≠ 0) (failed : memCopyToZero s.mem (s.reg b) = .error f) :
    exec (.loadprog b c) s = .fault f := (if_neg nonzero).trans (outcome_map_fault.2 failed)

theorem exec_loadprog_of_ok {m : Memory} (nonzero : s.reg b ≠ 0) (copied : memCopyToZero s.mem (s.reg b) = .ok m) :
    exec (.loadprog b c) s = .next { s with mem := m, pc := (s.reg c).toNat } :=
  (if_neg nonzero).trans (outcome_map_next.2 ⟨m, copied, rfl⟩)

theorem memCopyToZero_of_exec_loadprog {t : State} (nonzero : s.reg b ≠ 0)
    (executed : exec (.loadprog b c) s = .next t) :
    ∃ m, memCopyToZero s.mem (s.reg b) = .ok m ∧ t = { s with mem := m, pc := (s.reg c).toNat } :=
  outcome_map_next.1 ((if_neg nonzero).symm.trans executed)

end Loadprog

/-- Settles O27 (spec/20_memory.md R38, spec/90_conflicts.md C3, spec/92_eei_decisions.md D6, D10): after the ABANDON
the handle is not live, and each of the four looks for a live array first. -/
theorem useAfterAbandonFaults : Obligations.UseAfterAbandonFaults := by
  intro c s t executed r a d holds
  obtain ⟨m, freed, rfl⟩ := memFree_of_exec_abandon executed
  obtain ⟨nonzero, -, lookup, -⟩ := memFree_ok freed
  have dead : m.live (s.reg c).toNat = false := by rw [Memory.live, lookup, if_pos rfl]; rfl
  rw [← holds] at dead nonzero ⊢
  have access := fun i v => access_of_not_live dead i v
  exact ⟨exec_index_of_error (access _ 0).1, exec_amend_of_error (access _ _).2.1,
    exec_loadprog_of_error nonzero (access 0 0).2.2, exec_abandon_of_error (memFree_of_dead nonzero dead)⟩

theorem toNat_encode_loadprog (b c : Reg) : (encode (.loadprog b c)).toNat = 0xC0000000 + b * 8 + c :=
  toNat_standardWord (by decide) 0 b c

/-- Settles O33 (spec/46_control.md R121, spec/20_memory.md R37, spec/92_eei_decisions.md D9, D10): with handle 0 the
finger alone changes; else the copy needs a live array, and array 0 is then found where that array was. -/
theorem loadprogCopiesAndJumps : Obligations.LoadprogCopiesAndJumps := by
  intro b c
  refine ⟨toNat_encode_loadprog b c, fun s =>
    ⟨fun zero => ?jump, fun nonzero no_len => ?dead, fun nonzero len => ?copy⟩⟩
  case jump =>
    exact ⟨_, exec_loadprog_of_zero zero, rfl, StoreSame.of_mem rfl, fun _ => rfl, ⟨rfl, rfl, rfl⟩,
      ⟨rfl, rfl, rfl, rfl⟩, rfl, rfl, rfl⟩
  case dead =>
    exact exec_loadprog_of_error nonzero (access_of_not_live (State.lenAt_eq_none.1 no_len) 0 0).2.2
  case copy =>
    rcases memCopyToZero_cases s.mem (s.reg b) with ⟨dead, -⟩ | ⟨arr, -, copied⟩
    · exact absurd (State.lenAt_eq_none.2 dead) len
    · obtain ⟨lookup, free, count⟩ := memCopyToZero_ok copied
      have at_zero := (lookup 0).trans (if_pos rfl)
      refine ⟨_, exec_loadprog_of_ok nonzero copied, rfl, State.lenAt_of_lookup at_zero,
        State.wordAt_of_lookup at_zero, .of_lookup fun g other => (lookup g).trans (if_neg other.symm), count, free,
        fun _ => rfl, ⟨rfl, rfl, rfl⟩, ⟨rfl, rfl, rfl, rfl⟩, rfl, rfl, rfl⟩

/-- Settles O34 (spec/20_memory.md R37, spec/92_eei_decisions.md D10): the copy and its source are two arrays, handle 0
and another, and a write replaces one of them. -/
theorem loadedProgramSharesNothing : Obligations.LoadedProgramSharesNothing := by
  intro b c s t nonzero executed i v m
  obtain ⟨m', copied, rfl⟩ := memCopyToZero_of_exec_loadprog nonzero executed
  obtain ⟨lookup, -⟩ := memCopyToZero_ok copied
  have two : 0 ≠ (s.reg b).toNat := fun same => nonzero (BitVec.eq_of_toNat_eq same.symm)
  refine ⟨fun written => State.wordAt_of_lookup ?source, fun written => State.wordAt_of_lookup ?copy⟩
  case source =>
    exact (memWrite_lookup_ne written two).trans ((lookup 0).trans (if_pos rfl))
  case copy =>
    exact (memWrite_lookup_ne written two.symm).trans ((lookup _).trans (if_neg two))

/-- Settles O37 (spec/20_memory.md section 4): the AMEND leaves array 0 with the one word written, in canonical form
read back as it was stored, and the fetch reads that array. -/
theorem storedWordIsFetchedNext : Obligations.StoredWordIsFetchedNext := by
  intro s t w a b c store running flag fetched decoded zero stepped
  cases step_next stepped with
  | @executed w' u _ fetched' not_input executed retired =>
    obtain rfl : w' = w := Option.some.inj (fetched'.symm.trans fetched)
    rw [decoded] at executed
    obtain ⟨m, written, rfl⟩ := outcome_map_next.1 executed
    obtain ⟨arr, before, below, after⟩ := memWrite_lookup written
    rw [State.reg_afterFetch, zero] at before after
    have phase : t.phase = .running := by
      rw [retired]; exact if_neg (by rw [State.afterFetch_halted, flag]; exact nofun)
    have after' : t.mem.lookup 0 = some (arr.write (s.reg b).toNat (s.reg c)) := by rw [retired]; exact after
    have stored : t.wordAt 0 (s.reg b).toNat = some (s.reg c) :=
      State.wordAt_eq_some.2 ⟨_, after', below, (WordArray.read_write_same (store.array_wf before) _ _).symm⟩
    exact ⟨stored, phase, fun finger => step_running phase (State.fetch_ok.2 (by rw [finger, stored]))⟩
  | polled polls => rw [polls.decode_eq running fetched] at decoded; cases decoded
  | stayed halted => rw [running] at halted; cases halted

end Sys2Proof.Machine

namespace Sys2Proof.Machine

/-! ### The read and write table (spec/10_state.md R11) -/

/-- Two next states agree on the destination register `d` and on everything that is no register. -/
def StatesAgree (d : Option Reg) (t u : State) : Prop :=
  { u with regs := t.regs } = t ∧ ∀ r, d = some r → u.reg r = t.reg r

/-- Two outcomes are the same fault, or next states that agree. -/
def OutcomesAgree (d : Option Reg) (o p : Host.Outcome State Fault Refusal) : Prop :=
  (∀ f, o = .fault f ↔ p = .fault f) ∧ ∀ t u, o = .next t → p = .next u → StatesAgree d t u

theorem OutcomesAgree.next {d : Option Reg} {t u : State} (agree : StatesAgree d t u) :
    OutcomesAgree d (.next t) (.next u) :=
  ⟨fun f => ⟨nofun, nofun⟩, by rintro _ _ ⟨⟩ ⟨⟩; exact agree⟩

theorem OutcomesAgree.fault (d : Option Reg) (f : Fault) : OutcomesAgree d (.fault f) (.fault f) :=
  ⟨fun _ => Iff.rfl, fun _ _ faulted => nomatch faulted⟩

/-- A primitive applied to the same operands raises the same fault, or gives the same value to write. -/
theorem OutcomesAgree.map {α : Type} {d : Option Reg} {f g : α → State} (result : Except Fault α)
    (agree : ∀ v, StatesAgree d (f v) (g v)) :
    OutcomesAgree d (outcome (result.map f)) (outcome (result.map g)) := by
  cases result with
  | error e => exact .fault d e
  | ok v => exact .next (agree v)

/-- The same value is written to register `d` of two states that differ in registers only. -/
theorem State.setReg_agree (s : State) (regs : Vector Word 8) (d : Reg) (v : Word) :
    StatesAgree (some d) (s.setReg d v) (({ s with regs := regs } : State).setReg d v) := by
  refine ⟨rfl, ?_⟩
  rintro _ ⟨⟩
  rw [State.reg_setReg_same, State.reg_setReg_same]

/-- Where no register is written, states that differ in registers only still do. -/
theorem State.agree_of_regs (s : State) (regs : Vector Word 8) : StatesAgree none s { s with regs := regs } :=
  ⟨rfl, nofun⟩

/-- Execute depends on the registers it reads alone, as the table lists them. -/
theorem exec_agree {i : Instr} {s : State} (not_input : ∀ c, i ≠ .input c) {regs : Vector Word 8}
    (reads : ∀ r ∈ readRegs i s, ({ s with regs := regs } : State).reg r = s.reg r) :
    OutcomesAgree (writtenReg i s) (exec i s) (exec i { s with regs := regs }) := by
  cases i with
  | input c => exact absurd rfl (not_input c)
  | cmov a b c =>
    by_cases zero : s.reg c = 0
    · have listed : readRegs (.cmov a b c) s = [c] := if_pos zero
      have hc := reads c (by simp [listed])
      rw [exec_cmov_of_zero zero, exec_cmov_of_zero (hc.trans zero), writtenReg, if_pos zero]
      exact .next (State.agree_of_regs _ regs)
    · have listed : readRegs (.cmov a b c) s = [b, c] := if_neg zero
      have hb := reads b (by simp [listed])
      have hc := reads c (by simp [listed])
      rw [exec_cmov_of_ne_zero zero, exec_cmov_of_ne_zero (by rwa [hc]), hb, writtenReg, if_neg zero]
      exact .next (s.setReg_agree regs a _)
  | index a b c =>
    simp only [exec, execIndex, reads b (by simp [readRegs]), reads c (by simp [readRegs])]
    exact .map _ (s.setReg_agree regs a)
  | div a b c =>
    simp only [exec, execDiv, reads b (by simp [readRegs]), reads c (by simp [readRegs])]
    exact .map _ (s.setReg_agree regs a)
  | add a b c =>
    simp only [exec, execAdd, reads b (by simp [readRegs]), reads c (by simp [readRegs])]
    exact .next (s.setReg_agree regs a _)
  | mul a b c =>
    simp only [exec, execMul, reads b (by simp [readRegs]), reads c (by simp [readRegs])]
    exact .next (s.setReg_agree regs a _)
  | nand a b c =>
    simp only [exec, execNand, reads b (by simp [readRegs]), reads c (by simp [readRegs])]
    exact .next (s.setReg_agree regs a _)
  | ortho d imm => exact .next (s.setReg_agree regs d _)
  | amend a b c =>
    simp only [exec, execAmend, reads a (by simp [readRegs]), reads b (by simp [readRegs]),
      reads c (by simp [readRegs])]
    exact .map _ fun m => State.agree_of_regs _ regs
  | alloc b c =>
    simp only [exec, execAlloc, reads c (by simp [readRegs])]
    exact .map _ fun v => State.setReg_agree { s with mem := v.2 } regs b v.1
  | abandon c =>
    simp only [exec, execAbandon, reads c (by simp [readRegs])]
    exact .map _ fun m => State.agree_of_regs _ regs
  | loadprog b c =>
    have hb := reads b (by simp [readRegs])
    have hc := reads c (by simp [readRegs])
    by_cases zero : s.reg b = 0
    · rw [exec_loadprog_of_zero zero, exec_loadprog_of_zero (hb.trans zero), hc]
      exact .next (State.agree_of_regs _ regs)
    · simp only [exec, execLoadprog, hb, hc, if_neg zero]
      exact .map _ fun m => State.agree_of_regs _ regs
  | output c =>
    simp only [exec, execOutput, reads c (by simp [readRegs])]
    exact .next (State.agree_of_regs _ regs)
  | halt | nop14 | nop15 => exact .next (State.agree_of_regs _ regs)

/-- Settles O38 (spec/10_state.md R11): what execute changes is no register but the destination, and what it answers is
made of the registers the table says it reads. -/
theorem instructionsReadAndWriteAsListed : Obligations.InstructionsReadAndWriteAsListed := by
  intro i s not_input
  exact ⟨fun t executed r other => (exec_effect not_input executed).reg_eq other,
    fun regs reads => exec_agree not_input reads⟩

/-! ### The causes of the faults (spec/60_exceptions.md R150) -/

/-- The faults an access to the word at `(h, i)` can raise, and when (R33, R34). -/
inductive AccessFault (m : Memory) (h i : Word) : Fault → Prop where
  /-- The handle is not live. -/
  | handle (dead : m.live h.toNat = false) : AccessFault m h i (.handle h)
  /-- The index is at or past the length. -/
  | index {arr : WordArray} (found : m.lookup h.toNat = some arr) (past : arr.len ≤ i.toNat) :
      AccessFault m h i (.index h i)

theorem memRead_fault {m : Memory} {h i : Word} {f : Fault} (fault : memRead m h i = .error f) :
    AccessFault m h i f := by
  rcases memRead_cases m h i with ⟨dead, raised⟩ | ⟨arr, found, ⟨past, raised⟩ | ⟨-, done⟩⟩
  · rw [raised] at fault; cases fault; exact .handle dead
  · rw [raised] at fault; cases fault; exact .index found past
  · rw [done] at fault; cases fault

/-- A write makes the checks of the read before it changes anything. -/
theorem memRead_fault_of_memWrite {m : Memory} {h i v : Word} {f : Fault} (fault : memWrite m h i v = .error f) :
    memRead m h i = .error f := by
  rcases memWrite_cases m h i v with ⟨dead, raised⟩ | ⟨arr, found, ⟨past, raised⟩ | ⟨-, done⟩⟩
  · rw [raised] at fault; cases fault; exact (access_of_not_live dead i v).1
  · rw [raised] at fault; cases fault; exact (access_of_len_le found past v).1
  · rw [done] at fault; cases fault

theorem divWords_fault {x y : Word} {f : Fault} (fault : divWords x y = .error f) : y = 0 ∧ f = .div0 := by
  by_cases zero : y = 0
  · rw [divWords_of_zero x zero] at fault; cases fault; exact ⟨zero, rfl⟩
  · rw [divWords_of_ne_zero x zero] at fault; cases fault

/-- Settles O44 (spec/60_exceptions.md R150, spec/90_conflicts.md C3, spec/92_eei_decisions.md D6, D7, D9, D10, D13,
D21): a fault of execute is the one the instruction's primitive raises, whose cases give its cause. -/
theorem faultsHaveTheirListedCauses : Obligations.FaultsHaveTheirListedCauses := by
  intro i s f executed
  cases i with
  | index a b c =>
    cases memRead_fault (outcome_map_fault.1 executed) with
    | handle dead => exact ⟨State.lenAt_eq_none.2 dead, .inl ⟨a, b, c, rfl, rfl⟩⟩
    | index found past => exact ⟨⟨_, State.lenAt_eq_some.2 ⟨_, found, rfl⟩, past⟩, .inl ⟨a, b, c, rfl, rfl, rfl⟩⟩
  | amend a b c =>
    cases memRead_fault (memRead_fault_of_memWrite (outcome_map_fault.1 executed)) with
    | handle dead => exact ⟨State.lenAt_eq_none.2 dead, .inr (.inl ⟨a, b, c, rfl, rfl⟩)⟩
    | index found past => exact ⟨⟨_, State.lenAt_eq_some.2 ⟨_, found, rfl⟩, past⟩, .inr ⟨a, b, c, rfl, rfl, rfl⟩⟩
  | div a b c =>
    obtain ⟨zero, rfl⟩ := divWords_fault (outcome_map_fault.1 executed)
    exact ⟨a, b, c, rfl, zero⟩
  | alloc b c =>
    have fault := outcome_map_fault.1 executed
    rcases memAlloc_cases s.params.storeCapacity s.mem (s.reg c) with
      ⟨full, raised⟩ | ⟨-, ⟨_, _, -, done⟩ | ⟨-, -, done⟩⟩
    · rw [raised] at fault; cases fault; exact ⟨full, b, c, rfl, rfl⟩
    · rw [done] at fault; cases fault
    · rw [done] at fault; cases fault
  | abandon c =>
    have fault := outcome_map_fault.1 executed
    rcases memFree_cases s.mem (s.reg c) with ⟨zero, raised⟩ | ⟨nonzero, dead, raised⟩ | ⟨-, -, done⟩
    · rw [raised] at fault; cases fault; exact ⟨c, rfl, zero⟩
    · rw [raised] at fault; cases fault; exact ⟨c, rfl, rfl, nonzero, State.lenAt_eq_none.2 dead⟩
    · rw [done] at fault; cases fault
  | loadprog b c =>
    by_cases zero : s.reg b = 0
    · rw [exec_loadprog_of_zero zero] at executed; cases executed
    · have fault := outcome_map_fault.1 ((if_neg zero).symm.trans executed)
      rcases memCopyToZero_cases s.mem (s.reg b) with ⟨dead, raised⟩ | ⟨arr, -, done⟩
      · rw [raised] at fault; cases fault
        exact ⟨State.lenAt_eq_none.2 dead, .inr (.inr ⟨b, c, rfl, rfl, zero⟩)⟩
      · rw [done] at fault; cases fault
  | cmov | add | mul | nand | halt | output | input | ortho | nop14 | nop15 => cases executed

end Sys2Proof.Machine

namespace Sys2Proof.Machine

/-! ### NAND, OUT and HALT (spec/43_arithmetic.md R103, spec/45_io.md R115, spec/46_control.md R120) -/

theorem getLsbD_nandWords (x y : Word) {i : Nat} (hi : i < 32) :
    (nandWords x y).getLsbD i = !(x.getLsbD i && y.getLsbD i) := by
  simp [nandWords, hi]

/-- Settles O23 (spec/43_arithmetic.md R103, spec/92_eei_decisions.md D5): NAND writes one register with the complement
that `nandWords` takes of each bit. -/
theorem nandComplementsEveryBit : Obligations.NandComplementsEveryBit := by
  intro a b c
  refine ⟨toNat_standardWord (by decide) a b c, fun s => ⟨_, rfl, fun i hi => ?_, s.onlyRegChanged_setReg a _⟩⟩
  rw [State.reg_setReg_same, getLsbD_nandWords _ _ hi]

/-- Settles O28 (spec/45_io.md R115, spec/92_eei_decisions.md D19): OUT appends one byte to the output, and that is the
only field it touches. -/
theorem outEmitsTheLowByte : Obligations.OutEmitsTheLowByte := by
  intro c
  refine ⟨toNat_standardWord (by decide) 0 0 c, fun s => ⟨s.emit (lowByte (s.reg c)), _, rfl, rfl, toNat_lowByte _, ?_⟩⟩
  exact ⟨fun _ => rfl, StoreSame.of_mem rfl, rfl, ⟨rfl, rfl, rfl⟩, rfl, rfl, rfl, rfl, rfl, rfl⟩

theorem decode_halt_of_operator {w : Word} (operator : w.toNat / 2 ^ 28 = 7) : decode w = .halt := by
  rw [← opField_eq] at operator
  simp only [decode, operator]

/-- Settles O32 (spec/46_control.md R120, spec/90_conflicts.md C8, spec/92_eei_decisions.md D15): HALT sets the flag and
the report, and the end of its step counts it and makes the phase Halted. -/
theorem haltStopsAndReports : Obligations.HaltStopsAndReports := by
  refine ⟨fun s => ⟨_, rfl, rfl, rfl, rfl, rfl, rfl, fun _ => rfl, StoreSame.of_mem rfl, rfl, rfl, rfl, rfl, rfl, rfl⟩,
    fun s w running fetched operator => ?_⟩
  have executed : exec (decode w) s.afterFetch =
      .next { s.afterFetch with halted := true, report := some (s.count + 1) } := by
    rw [decode_halt_of_operator operator]; rfl
  refine ⟨_, step_of_exec_next running fetched executed, ?_⟩
  rw [State.retire_done _ (by simp [running])]
  exact ⟨rfl, rfl, rfl, rfl, rfl, fun _ => rfl, StoreSame.of_mem rfl, rfl⟩

/-! ### Reset and boot (spec/10_state.md R24, spec/70_reset_and_hazards.md R170) -/

theorem reset_reg (r : Reg) : State.reset.reg r = 0 := by
  revert r
  decide

/-- Settles O8 (spec/10_state.md R24, spec/92_eei_decisions.md D1, D3): the fields of `State.reset`, whose store meets
its invariants. -/
theorem resetMeetsTheInvariant : Obligations.ResetMeetsTheInvariant :=
  ⟨⟨reset_memory_wf, by decide, fun _ => rfl, nofun⟩, rfl, rfl, rfl, rfl, rfl, rfl, rfl, rfl, reset_reg⟩

/-- Settles O7 (spec/70_reset_and_hazards.md R170, spec/10_state.md R24, spec/92_eei_decisions.md D1, D2, D3, D20): the
image is refused for its length or its size; else it becomes array 0 of the reset state, and the rest stays at reset. -/
theorem bootLoadsTheImage : Obligations.BootLoadsTheImage := by
  intro p image
  refine ⟨fun ragged => ?length, fun ws words => ⟨fun large => ?size, fun fits => ?boots⟩⟩
  case length => simp only [boot, (imageWords_eq_none_iff image).2 ragged]
  case size => rw [boot_of_words words, if_pos large]
  case boots =>
    have minted : 0 < State.reset.mem.count := by decide
    have word : ∀ k, (({ State.reset with params := p } : State).loadImage ws).wordAt 0 k = ws[k]? :=
      State.wordAt_loadImage minted ws
    refine ⟨_, (boot_of_words words).trans (if_neg (Nat.not_lt.2 fits)), reset_reg, rfl, rfl, rfl, rfl, rfl, rfl, ?_,
      fun k w at_k => (word k).trans at_k, rfl, rfl, fun bound => ?_⟩
    · exact (State.lenAt_put minted 0).trans (if_pos rfl)
    · exact ⟨State.loadImage_wf reset_memory_wf (fits.trans_lt bound), Nat.two_pow_pos 32, fun _ => rfl, nofun⟩

end Sys2Proof.Machine
